-- ==== Sys2Proof/Word.lean ====
section
/-!
DEFINITION. The two word types of the machine (spec/00_scope.md rule R8, spec/10_state.md rules R13 and R14).
Every quantity is unsigned. Addresses while they are computed, `ABR` and `CycleCount` are `Nat`, not words:
the spec forbids truncating them.
-/

namespace Sys2Proof

/-- `u8`: a memory cell, a register `A`, `X`, `Y`, `SP`, an operand byte (R8, R13, R31). -/
abbrev Byte := BitVec 8

/-- `u16`: the program counter and the operand word (R8, R14, R55). -/
abbrev Word := BitVec 16

end Sys2Proof
end

