-- ==== Sys2Proof/Config.lean ====
section
/-!
DEFINITION. What is fixed for one machine: the constants of the block and the record of its OPEN parameters
(spec/00_scope.md rule R7, spec/92_eei_decisions.md D1, D3, D4).
The spec leaves no value of an instruction undefined, so there is no free value here.
-/

namespace Sys2Proof

/-- `MAX_MEM`: the number of memory cells (R7, R31). -/
def memSize : Nat := 65536

/-- `RESET_PC` (R7, R113). -/
def resetPc : Word := 0xFFFC

/-- What a memory cell that the list of cells does not name reads as: `init()` sets every cell to 0 (R25, R32). -/
def unlistedByte : Byte := 0x00

/-- The OPEN parameters of rule R7, "a model takes the ones marked OPEN as arguments (a configuration record)". -/
structure Config where
  /-- `OP_LDA_IMM` -/
  opLdaImm : Byte
  /-- `OP_LDA_ZP` -/
  opLdaZp : Byte
  /-- `OP_LDA_ZPX` -/
  opLdaZpx : Byte
  /-- `OP_LDA_ABS` -/
  opLdaAbs : Byte
  /-- `OP_LDA_ABSX` -/
  opLdaAbsx : Byte
  /-- `OP_LDA_ABSY` -/
  opLdaAbsy : Byte
  /-- `OP_JMP_ABS` -/
  opJmpAbs : Byte
  /-- `OP_JMP_IND` -/
  opJmpInd : Byte
  /-- `ZPX_REMASK`: whether Zero Page,X re-masks the sum to 8 bits (R68, D3). -/
  zpxRemask : Bool
  /-- `PAGE_CROSS_EXTRA`: the cycles, 0 or 1, that Absolute,X and Absolute,Y add on a page cross (R70, D4). -/
  pageCrossExtra : Fin 2
  deriving DecidableEq, Repr

/-- The default value of every parameter (R7).
PRESUMED (log 1): the eight opcode bytes are the standard MOS 6502 bytes, "from general knowledge, not in source".
Unsafe for a claim that names a byte: the claim is then about this assignment only. -/
def Config.default : Config where
  opLdaImm := 0xA9
  opLdaZp := 0xA5
  opLdaZpx := 0xB5
  opLdaAbs := 0xAD
  opLdaAbsx := 0xBD
  opLdaAbsy := 0xB9
  opJmpAbs := 0x4C
  opJmpInd := 0x6C
  zpxRemask := false
  pageCrossExtra := 0

/-- The eight implemented opcode bytes, in the order of rule R7's table. -/
def Config.opcodes (cfg : Config) : List Byte :=
  [cfg.opLdaImm, cfg.opLdaZp, cfg.opLdaZpx, cfg.opLdaAbs, cfg.opLdaAbsx, cfg.opLdaAbsy, cfg.opJmpAbs, cfg.opJmpInd]

/-- "The eight `OP_*` values must be pairwise distinct ... a configuration that breaks this is not a configuration
of this hardware" (R7). -/
abbrev Config.wf (cfg : Config) : Prop := cfg.opcodes.Nodup

end Sys2Proof
end

