-- ==== Sys2Proof/Syntax.lean ====
section
/-!
DEFINITION. The instructions: one constructor per row of spec/opcode_table.json, with the operands the row's format
gives it (spec/30_encoding.md rules R53, R55, R57; spec/43_dispatch.md rule R91).
-/

namespace Sys2Proof

/-- The nine instructions with their operands: the six forms of `LDA`, the two of `JMP`, and the ninth,
`UNKNOWN`, which carries the byte that has no implemented case. -/
inductive Instr where
  /-- `LDA #$nn` (R76) -/
  | ldaImm (imm8 : Byte)
  /-- `LDA $nn` (R77) -/
  | ldaZp (zp8 : Byte)
  /-- `LDA $nn,X` (R78) -/
  | ldaZpx (zp8 : Byte)
  /-- `LDA $nnnn` (R79) -/
  | ldaAbs (word : Word)
  /-- `LDA $nnnn,X` (R80) -/
  | ldaAbsx (word : Word)
  /-- `LDA $nnnn,Y` (R81) -/
  | ldaAbsy (word : Word)
  /-- `JMP $nnnn` (R83) -/
  | jmpAbs (word : Word)
  /-- `JMP ($nnnn)` (R84) -/
  | jmpInd (word : Word)
  /-- Any byte that is not one of the eight `OP_*` values (R91) -/
  | unknown (op : Byte)
  deriving DecidableEq, Repr

/-- An instruction without its operands: what the opcode byte alone decides (R56, R88). -/
inductive Form where
  | ldaImm | ldaZp | ldaZpx | ldaAbs | ldaAbsx | ldaAbsy | jmpAbs | jmpInd | unknown
  deriving DecidableEq, Repr

/-- The four instruction formats (R53). -/
inductive Format where
  /-- `OP`: the opcode byte alone -/
  | op
  /-- `OP_IMM8`: opcode, operand value -/
  | opImm8
  /-- `OP_ZP8`: opcode, zero-page address -/
  | opZp8
  /-- `OP_ABS16`: opcode, low byte, high byte of the operand word -/
  | opAbs16
  deriving DecidableEq, Repr

/-- The number of operand bytes of a format (R53). -/
def Format.operandBytes : Format → Nat
  | .op => 0
  | .opImm8 => 1
  | .opZp8 => 1
  | .opAbs16 => 2

/-- The format column of the opcode map (R57). -/
def Form.format : Form → Format
  | .ldaImm => .opImm8
  | .ldaZp => .opZp8
  | .ldaZpx => .opZp8
  | .ldaAbs => .opAbs16
  | .ldaAbsx => .opAbs16
  | .ldaAbsy => .opAbs16
  | .jmpAbs => .opAbs16
  | .jmpInd => .opAbs16
  | .unknown => .op

/-- The length of an instruction in bytes: "the opcode byte alone decides" (R56). -/
def Form.length (f : Form) : Nat := 1 + f.format.operandBytes

/-- The form of an instruction. -/
def Instr.form : Instr → Form
  | .ldaImm _ => .ldaImm
  | .ldaZp _ => .ldaZp
  | .ldaZpx _ => .ldaZpx
  | .ldaAbs _ => .ldaAbs
  | .ldaAbsx _ => .ldaAbsx
  | .ldaAbsy _ => .ldaAbsy
  | .jmpAbs _ => .jmpAbs
  | .jmpInd _ => .jmpInd
  | .unknown _ => .unknown

/-- The `LDA` forms (R75: the flag update "shared by all six forms"). -/
def Instr.isLda : Instr → Bool
  | .ldaImm _ => true
  | .ldaZp _ => true
  | .ldaZpx _ => true
  | .ldaAbs _ => true
  | .ldaAbsx _ => true
  | .ldaAbsy _ => true
  | .jmpAbs _ => false
  | .jmpInd _ => false
  | .unknown _ => false

end Sys2Proof
end

