-- ==== Sys2Proof/WellFormed.lean ====
section
/-!
DEFINITION. Which terms of `Instr` are instructions of a machine with given parameters.
Every operand value of the eight implemented rows is legal (spec/30_encoding.md rule R55, spec/42_jump.md rule R85);
the one check is on the ninth row, whose byte must be unknown (rule R59).
-/

namespace Sys2Proof

/-- An unknown opcode is "every byte value that is not one of the eight `OP_*` values" (R59).
A wrapped-up implemented byte is not an `UNKNOWN` instruction. -/
def WellFormed (cfg : Config) : Instr → Bool
  | .ldaImm _ => true
  | .ldaZp _ => true
  | .ldaZpx _ => true
  | .ldaAbs _ => true
  | .ldaAbsx _ => true
  | .ldaAbsy _ => true
  | .jmpAbs _ => true
  | .jmpInd _ => true
  | .unknown op => decide (op ∉ cfg.opcodes)

end Sys2Proof
end

