-- ==== Sys2Proof/Decode.lean ====
section
/-!
DEFINITION. The decoder, from the bytes of an instruction in memory order to an instruction, and the encoder
(spec/30_encoding.md rules R53 to R60, spec/43_dispatch.md rule R88).
The opcode bytes are parameters, so both take the configuration record.
-/

namespace Sys2Proof

/-! ## Byte order -/

/-- `lo(w) = w[7:0]` (R8). -/
def loByte (w : Word) : Byte := w.setWidth 8

/-- `hi(w) = w[15:8]` (R8). -/
def hiByte (w : Word) : Byte := (w >>> 8).setWidth 8

/-- `word = low | (high << 8)` (R36, R39, R55). -/
def wordOf (lo hi : Byte) : Word := lo.setWidth 16 ||| (hi.setWidth 16 <<< 8)

/-! ## Decoding -/

/-- Dispatch: the whole opcode byte is compared, by equality, in the order of rule R87. With pairwise distinct
`OP_*` values "at most one arm matches and the order of the tests is immaterial" (R88). -/
def Config.form (cfg : Config) (op : Byte) : Form :=
  if op = cfg.opLdaImm then .ldaImm
  else if op = cfg.opLdaZp then .ldaZp
  else if op = cfg.opLdaZpx then .ldaZpx
  else if op = cfg.opLdaAbs then .ldaAbs
  else if op = cfg.opLdaAbsx then .ldaAbsx
  else if op = cfg.opLdaAbsy then .ldaAbsy
  else if op = cfg.opJmpAbs then .jmpAbs
  else if op = cfg.opJmpInd then .jmpInd
  else .unknown

/-- Operand assembly (R55): the instruction of form `f` whose opcode byte is `op` and whose next two bytes are
`b1` and `b2`. A byte past the form's length is not looked at. -/
def assemble (f : Form) (op b1 b2 : Byte) : Instr :=
  match f with
  | .ldaImm => .ldaImm b1
  | .ldaZp => .ldaZp b1
  | .ldaZpx => .ldaZpx b1
  | .ldaAbs => .ldaAbs (wordOf b1 b2)
  | .ldaAbsx => .ldaAbsx (wordOf b1 b2)
  | .ldaAbsy => .ldaAbsy (wordOf b1 b2)
  | .jmpAbs => .jmpAbs (wordOf b1 b2)
  | .jmpInd => .jmpInd (wordOf b1 b2)
  | .unknown => .unknown op

/-- Why a list of bytes is not decoded. No byte value is refused (R60): only a list that ends too early is. -/
inductive DecodeReject where
  /-- there is no opcode byte -/
  | noOpcode
  /-- the list ends before the operand bytes that the opcode `op` takes -/
  | truncated (op : Byte)
  deriving DecidableEq, Repr

/-- Decode the instruction at the head of a list of bytes in memory order; answers the bytes left over.
"The opcode byte alone decides" the length (R56). -/
def decode (cfg : Config) : List Byte → Except DecodeReject (Instr × List Byte)
  | [] => .error .noOpcode
  | op :: rest =>
    match (cfg.form op).format.operandBytes, rest with
    | 0, rest => .ok (assemble (cfg.form op) op 0 0, rest)
    | 1, b1 :: rest => .ok (assemble (cfg.form op) op b1 0, rest)
    | 2, b1 :: b2 :: rest => .ok (assemble (cfg.form op) op b1 b2, rest)
    | _, _ => .error (.truncated op)

/-! ## Encoding -/

/-- The bytes of an instruction in memory order (R53, R57). -/
def encode (cfg : Config) : Instr → List Byte
  | .ldaImm imm8 => [cfg.opLdaImm, imm8]
  | .ldaZp zp8 => [cfg.opLdaZp, zp8]
  | .ldaZpx zp8 => [cfg.opLdaZpx, zp8]
  | .ldaAbs word => [cfg.opLdaAbs, loByte word, hiByte word]
  | .ldaAbsx word => [cfg.opLdaAbsx, loByte word, hiByte word]
  | .ldaAbsy word => [cfg.opLdaAbsy, loByte word, hiByte word]
  | .jmpAbs word => [cfg.opJmpAbs, loByte word, hiByte word]
  | .jmpInd word => [cfg.opJmpInd, loByte word, hiByte word]
  | .unknown op => [op]

/-! ## The opcode table's words -/

/-- The three bytes, in memory order, of an instruction whose bits are `w`: bit 0 is the least significant bit of
the byte at the lowest address, and every bit from `nbits` up is 0 (the longest instruction has 3 bytes, R53). -/
def tableBytes (nbits w : Nat) : List Byte :=
  [BitVec.ofNat 8 (w % 2 ^ nbits), BitVec.ofNat 8 (w % 2 ^ nbits / 256), BitVec.ofNat 8 (w % 2 ^ nbits / 65536)]

/-- The instruction the decoder reads, with the default parameters, from a word numbered as
spec/opcode_table.json numbers it. -/
def decodeTableWord (nbits w : Nat) : Option Instr :=
  match decode Config.default (tableBytes nbits w) with
  | .ok (i, _) => some i
  | .error _ => none

end Sys2Proof
end

