-- ==== Sys2Proof/Machine/State.lean ====
section
/-!
DEFINITION. The state of the machine as plain data: the Register/Flag State record of spec/10_state.md, the memory of
spec/20_memory.md, and two fields of the model's own that the fixed type of `step` asks for: the step's report output
(log 5) and the parameters of this machine (log 4). Then the two ways a step can stop, and the state after reset.
-/

namespace Sys2Proof.Machine

/-- The memory: a list of (address, byte) cells in the canonical form `Memory.wf` of Machine/Ops.lean.
An address the list does not name reads as `unlistedByte`, which is what reset puts into every cell (R25, R32). -/
abbrev Memory := List Host.Cell

/-- The `report` output of a step (R5, R96). -/
inductive Report where
  /-- `UnknownOpcode(op, at)`: the byte, and the address it was fetched from -/
  | unknownOpcode (op : Byte) (pc0 : Word)
  deriving DecidableEq, Repr

/-- The whole machine at a step boundary. -/
structure State where
  /-- `PC`, "address of the next instruction byte to fetch" (R14) -/
  pc : Word
  /-- `SP`, the stack pointer, which no implemented instruction reads or writes (R16) -/
  sp : Byte
  /-- `A`, the accumulator (R13) -/
  a : Byte
  /-- `X`, index register (R13) -/
  x : Byte
  /-- `Y`, index register (R13) -/
  y : Byte
  /-- `C`, Carry (R17, R19) -/
  flagC : Bool
  /-- `Z`, Zero (R17, R18) -/
  flagZ : Bool
  /-- `I`, Interrupt-Disable, a placeholder (R17, R20) -/
  flagI : Bool
  /-- `D`, Decimal, a placeholder (R17, R20) -/
  flagD : Bool
  /-- `B`, Break, a placeholder (R17, R20) -/
  flagB : Bool
  /-- `O`, Overflow (R17, R19) -/
  flagO : Bool
  /-- `N`, Negative (R17, R18) -/
  flagN : Bool
  /-- `ABR`, the effective-address register, never truncated (R21) -/
  abr : Nat
  /-- `CycleCount`, memory accesses and internal cycles since reset (R22) -/
  cycleCount : Nat
  /-- the 65536 cells of memory (R31) -/
  mem : Memory
  /-- The `report` output of the step that led here (R5). DESIGN CHOICE (log 5): the model's own field, because the
  three outcomes of a step have no place for a report. Every step overwrites it and nothing reads it. -/
  report : Option Report
  /-- The parameters of this machine (R7). DESIGN CHOICE (log 4): the model's own field, because `step` takes nothing
  but a state. No step and no reset changes it. -/
  cfg : Config
  deriving DecidableEq, Repr

/-- What ends a run. -/
inductive Fault where
  /-- `AddressOutOfRange(addr)` (R97): raised by a memory access at `addr >= 65536`, that is by the data read of
  `LDA` Absolute,X and `LDA` Absolute,Y, by the second pointer read of `JMP` Indirect, and by a host access.
  Safe: the spec names hard fault as the reference behaviour, and a hardware that wrapped would go on where the model
  stops. `record` is the machine at the moment of the fault, given "for definiteness" (R97, D12, log 6); a claim that
  reads it is unsafe. -/
  | addressOutOfRange (addr : Nat) (record : State)
  deriving DecidableEq, Repr

/-- Why a step has no meaning. -/
inductive Refusal where
  /-- Raised only by an arm of `exec` whose instruction has no meaning yet; in this model no arm raises it.
  Safe: nothing is claimed of such a step. -/
  | notModelled (mnemonic : String)
  deriving DecidableEq, Repr

/-- The machine after `reset(memory)`: every value is the spec's own (R25, R113). The parameters are the defaults of
rule R7, and no step has been made, so there is no report. -/
def State.reset : State where
  pc := resetPc
  sp := 0x00
  a := 0x00
  x := 0x00
  y := 0x00
  flagC := false
  flagZ := false
  flagI := false
  flagD := false
  flagB := false
  flagO := false
  flagN := false
  abr := 0
  cycleCount := 0
  mem := []
  report := none
  cfg := Config.default

end Sys2Proof.Machine
end

