-- ==== Sys2Proof/Machine/Ops.lean ====
section
/-!
DEFINITION. The named operations over memory and registers: the memory component (spec/20_memory.md rules R31 to R34),
the four access primitives of the engine (rules R35, R36, R38, R39), cycle accounting, the fatal fault and the report
(spec/60_exceptions.md rules R96, R97), and the fetch of an instruction's bytes.
There is no trap entry and no return from one (rules R101, R102): the two events below are all there is.
-/

namespace Sys2Proof.Machine

/-! ## The memory component -/

/-- The canonical form from address `lo` on: addresses strictly rising and below `memSize`, and no cell that holds
what an unlisted address reads as. -/
def Memory.wfFrom (lo : Nat) : Memory → Bool
  | [] => true
  | (a, v) :: m => decide (lo ≤ a) && decide (a < memSize) && decide (v ≠ unlistedByte) && Memory.wfFrom (a + 1) m

/-- The canonical form of a memory: equal memories are equal lists. -/
def Memory.wf (m : Memory) : Bool := Memory.wfFrom 0 m

/-- The cell at `addr` (R33); an unlisted cell holds `unlistedByte`. -/
def Memory.byteAt : Memory → Nat → Byte
  | [], _ => unlistedByte
  | (a, v) :: m, addr => if a = addr then v else Memory.byteAt m addr

/-- A cell put before the rest, unless it holds what an unlisted address reads as. -/
def Memory.cons (addr : Nat) (v : Byte) (m : Memory) : Memory :=
  if v = unlistedByte then m else (addr, v) :: m

/-- Store `v` at `addr`, keeping the canonical form (R34). -/
def Memory.store : Memory → Nat → Byte → Memory
  | [], addr, v => Memory.cons addr v []
  | (a, b) :: m, addr, v =>
    if a < addr then (a, b) :: Memory.store m addr v
    else if a = addr then Memory.cons addr v m
    else Memory.cons addr v ((a, b) :: m)

/-! ## Writing one field -/

/-- `PC <- v` -/
def State.setPc (s : State) (v : Word) : State := { s with pc := v }

/-- `A <- v` -/
def State.setA (s : State) (v : Byte) : State := { s with a := v }

/-- `ABR <- v` -/
def State.setAbr (s : State) (v : Nat) : State := { s with abr := v }

/-- The whole memory replaced. -/
def State.setMem (s : State) (m : Memory) : State := { s with mem := m }

/-- The step's `report` output set or cleared (R5). -/
def State.setReport (s : State) (r : Option Report) : State := { s with report := r }

/-- `cycle(n)`: `CycleCount <- CycleCount + n` (R9), exact (R22). -/
def State.cycle (s : State) (n : Nat) : State := { s with cycleCount := s.cycleCount + n }

/-! ## The two events -/

/-- `raise AddressOutOfRange(addr)` in state `s`: it ends the step at once (R9, R97). -/
def raiseOutOfRange (addr : Nat) (s : State) : Fault := .addressOutOfRange addr s

/-- `report UnknownOpcode(op, at)`: it sets the report output and does not end the step (R9, R96). -/
def reportUnknown (op : Byte) (pc0 : Word) (s : State) : State := s.setReport (some (.unknownOpcode op pc0))

/-! ## Memory access -/

/-- `MemRead(addr, 1)` (R9, R33): no cycle is charged. -/
def memRead (addr : Nat) (s : State) : Except Fault Byte :=
  if addr < memSize then .ok (s.mem.byteAt addr) else .error (raiseOutOfRange addr s)

/-- `MemWrite(addr, 1, v)` (R9, R34): the engine never issues it (R37), the host does. -/
def memWrite (addr : Nat) (v : Byte) (s : State) : Except Fault State :=
  if addr < memSize then .ok (s.setMem (s.mem.store addr v)) else .error (raiseOutOfRange addr s)

/-- `init()`: "sets every cell to 0" (R32). -/
def memInit (s : State) : State := s.setMem []

/-! ## The four primitives of the engine -/

/-- `fetchByte()` (R35). `PC` is a `u16`, so the read is always in range, and `PC +16 1` wraps (D5, log 7). -/
def fetchByte (s : State) : Byte × State :=
  (s.mem.byteAt s.pc.toNat, (s.setPc (s.pc + 1)).cycle 1)

/-- `fetchWord()`: two fetches, low byte first (R36). -/
def fetchWord (s : State) : Word × State :=
  (wordOf (fetchByte s).1 (fetchByte (fetchByte s).2).1, (fetchByte (fetchByte s).2).2)

/-- `readByte(addr)` (R38): the cycle is charged after the read succeeds (D12, log 6). -/
def readByte (addr : Nat) (s : State) : Except Fault (Byte × State) :=
  match memRead addr s with
  | .ok b => .ok (b, s.cycle 1)
  | .error f => .error f

/-- `readWord(addr)`: two reads, at `addr` and at `addr + 1` with no wrap, low byte first (R39, D8, log 9). -/
def readWord (addr : Nat) (s : State) : Except Fault (Word × State) :=
  match readByte addr s with
  | .error f => .error f
  | .ok (lo, s1) =>
    match readByte (addr + 1) s1 with
    | .error f => .error f
    | .ok (hi, s2) => .ok (wordOf lo hi, s2)

/-! ## The instruction at the program counter -/

/-- Byte `k` of the instruction that starts at `PC`: the byte at `PC +16 k` (R53). -/
def streamByte (s : State) (k : Nat) : Byte := s.mem.byteAt (s.pc + BitVec.ofNat 16 k).toNat

/-- The instruction whose bytes stand at `PC`, decoded with this machine's parameters (R56, R88). -/
def instrAtPc (s : State) : Instr :=
  assemble (s.cfg.form (streamByte s 0)) (streamByte s 0) (streamByte s 1) (streamByte s 2)

/-- The state after a step has begun (`report <- None`, R87) and has fetched the `n` bytes of its instruction: the
effect of `n` times `fetchByte` on the state (R35). Every instruction fetches all its bytes before anything else
(R126). -/
def State.fetched (s : State) (n : Nat) : State :=
  ((s.setReport none).setPc (s.pc + BitVec.ofNat 16 n)).cycle n

/-- `bytes` stored at `a`, `a + 1`, ..., addresses wrapping at the top of memory as `PC` does (R53). -/
def Memory.storeBytes (m : Memory) (a : Word) : List Byte → Memory
  | [] => m
  | b :: bytes => Memory.storeBytes (m.store a.toNat b) (a + 1) bytes

end Sys2Proof.Machine
end

