-- ==== Sys2Proof/Machine/Operands.lean ====
section
/-!
DEFINITION. The addressing-mode resolver (spec/40_addressing_modes.md): the effective address of every mode, and the
resolvers, from the operand that the instruction holds. They run after the operand bytes have been fetched.
A resolver does not check the range of the address it computes; the access that uses it does (rule R65).
-/

namespace Sys2Proof.Machine

/-! ## Effective addresses -/

/-- Zero Page: `fetchByte() & 0xFF` (R67); the mask changes nothing. -/
def zeroPageAddr (zp8 : Byte) : Nat := (zp8 &&& 0xFF).toNat

/-- Zero Page,X (R68): the exact sum, re-masked to 8 bits only under `ZPX_REMASK = true` (D3). -/
def zeroPageXAddr (cfg : Config) (zp8 x : Byte) : Nat :=
  if cfg.zpxRemask then (zeroPageAddr zp8 + x.toNat) &&& 0xFF else zeroPageAddr zp8 + x.toNat

/-- Absolute: the operand word (R69). -/
def absoluteAddr (word : Word) : Nat := word.toNat

/-- Absolute,X and Absolute,Y: the exact sum, never reduced (R70); the index is unsigned (D22, log 15). -/
def indexedAddr (word : Word) (r : Byte) : Nat := word.toNat + r.toNat

/-- `page(a) = a >> 8` (R8). -/
def page (a : Nat) : Nat := a >>> 8

/-- The cycles that an indexed absolute access adds: `PAGE_CROSS_EXTRA` when the indexed address lies in another page
than the base (R70). PRESUMED (log 3): the spec takes this meaning of a page cross from general knowledge. -/
def pageCrossCharge (cfg : Config) (word : Word) (r : Byte) : Nat :=
  if page (indexedAddr word r) ≠ page word.toNat then cfg.pageCrossExtra.val else 0

/-! ## Resolvers -/

/-- R67 -/
def resolveZeroPage (zp8 : Byte) (s : State) : State := s.setAbr (zeroPageAddr zp8)

/-- R68: one extra cycle, always. -/
def resolveZeroPageX (zp8 : Byte) (s : State) : State := (s.setAbr (zeroPageXAddr s.cfg zp8 s.x)).cycle 1

/-- R69 -/
def resolveAbsolute (word : Word) (s : State) : State := s.setAbr (absoluteAddr word)

/-- R70, with `r` the value of the index register. -/
def resolveAbsoluteIndexed (word : Word) (r : Byte) (s : State) : State :=
  (s.setAbr (indexedAddr word r)).cycle (pageCrossCharge s.cfg word r)

/-- R71: the one resolver that reads memory; when the read faults `ABR` is not written. -/
def resolveIndirect (pointer : Word) (s : State) : Except Fault State :=
  match readWord pointer.toNat s with
  | .error f => .error f
  | .ok (target, s') => .ok (s'.setAbr target.toNat)

end Sys2Proof.Machine
end

