-- ==== Sys2Proof/Machine/Jump.lean ====
section
/-!
DEFINITION. The two forms of `JMP` (spec/42_jump.md). Each meaning is the whole step of its instruction.
-/

namespace Sys2Proof.Machine

/-- `JMP` Absolute: `PC` is set "directly to the fetched word", and `ABR` is left alone (R83, D11, log 10). -/
def execJmpAbs (word : Word) (s : State) : Host.Outcome State Fault Refusal :=
  .next ((s.fetched 3).setPc word)

/-- `JMP` Indirect: `pc <- ABR[15:0]` after the resolver has read the pointer (R84). -/
def execJmpInd (word : Word) (s : State) : Host.Outcome State Fault Refusal :=
  match resolveIndirect word (s.fetched 3) with
  | .ok s' => .next (s'.setPc (BitVec.ofNat 16 s'.abr))
  | .error f => .fault f

end Sys2Proof.Machine
end

