-- ==== Sys2Proof/Machine/Flags.lean ====
section
/-!
DEFINITION. The one flag computation of the block (spec/41_load_accumulator.md rule R75). The flags `C I D B O` are
computed by nothing (spec/10_state.md rules R19, R20).
-/

namespace Sys2Proof.Machine

/-- "Negative flag = bit 7 of `A`" (R18). -/
def negativeOf (v : Byte) : Bool := v.getLsbD 7

/-- "Zero flag = 1 iff `A == 0`" (R18). -/
def zeroOf (v : Byte) : Bool := decide (v = 0)

/-- `setNZ(v)`: no other flag is touched, and no flag is read (R75). -/
def State.setNZ (s : State) (v : Byte) : State := { s with flagN := negativeOf v, flagZ := zeroOf v }

end Sys2Proof.Machine
end

