-- ==== Sys2Proof/Machine/LoadAccumulator.lean ====
section
/-!
DEFINITION. The six forms of `LDA` (spec/41_load_accumulator.md). Each meaning is the whole step of its instruction:
it begins in the state at the start of the step and fetches the instruction's own bytes.
-/

namespace Sys2Proof.Machine

/-- `A <- v; setNZ(A)` (R75, R76). -/
def loadA (v : Byte) (s : State) : State := (s.setA v).setNZ v

/-- `A <- readByte(ABR); setNZ(A)` (R77 to R81): a read out of range ends the step. -/
def loadFromAbr (s : State) : Host.Outcome State Fault Refusal :=
  match readByte s.abr s with
  | .ok (v, s') => .next (loadA v s')
  | .error f => .fault f

/-- `LDA` Immediate (R76). -/
def execLdaImm (imm8 : Byte) (s : State) : Host.Outcome State Fault Refusal :=
  .next (loadA imm8 (s.fetched 2))

/-- `LDA` Zero Page (R77). -/
def execLdaZp (zp8 : Byte) (s : State) : Host.Outcome State Fault Refusal :=
  loadFromAbr (resolveZeroPage zp8 (s.fetched 2))

/-- `LDA` Zero Page,X (R78). -/
def execLdaZpx (zp8 : Byte) (s : State) : Host.Outcome State Fault Refusal :=
  loadFromAbr (resolveZeroPageX zp8 (s.fetched 2))

/-- `LDA` Absolute (R79). -/
def execLdaAbs (word : Word) (s : State) : Host.Outcome State Fault Refusal :=
  loadFromAbr (resolveAbsolute word (s.fetched 3))

/-- `LDA` Absolute,X (R80). -/
def execLdaAbsx (word : Word) (s : State) : Host.Outcome State Fault Refusal :=
  loadFromAbr (resolveAbsoluteIndexed word s.x (s.fetched 3))

/-- `LDA` Absolute,Y (R81). -/
def execLdaAbsy (word : Word) (s : State) : Host.Outcome State Fault Refusal :=
  loadFromAbr (resolveAbsoluteIndexed word s.y (s.fetched 3))

end Sys2Proof.Machine
end

