-- ==== Sys2Proof/Machine/Unknown.lean ====
section
/-!
DEFINITION. The ninth instruction, `UNKNOWN`: a byte with no implemented case (spec/43_dispatch.md rule R91).
-/

namespace Sys2Proof.Machine

/-- One byte is consumed and reported, and nothing else happens (R91): not a trap, not a stop. -/
def execUnknown (op : Byte) (s : State) : Host.Outcome State Fault Refusal :=
  .next (reportUnknown op s.pc (s.fetched 1))

end Sys2Proof.Machine
end

