-- ==== Sys2Proof/Machine/Dispatch.lean ====
section
/-!
DEFINITION. One arm per instruction (spec/43_dispatch.md rule R87).
-/

namespace Sys2Proof.Machine

/-- The whole step of the instruction `i`, from the state at the start of the step. -/
def exec (i : Instr) (s : State) : Host.Outcome State Fault Refusal :=
  match i with
  | .ldaImm imm8 => Sys2Proof.Machine.execLdaImm imm8 s
  | .ldaZp zp8 => Sys2Proof.Machine.execLdaZp zp8 s
  | .ldaZpx zp8 => Sys2Proof.Machine.execLdaZpx zp8 s
  | .ldaAbs word => Sys2Proof.Machine.execLdaAbs word s
  | .ldaAbsx word => Sys2Proof.Machine.execLdaAbsx word s
  | .ldaAbsy word => Sys2Proof.Machine.execLdaAbsy word s
  | .jmpAbs word => Sys2Proof.Machine.execJmpAbs word s
  | .jmpInd word => Sys2Proof.Machine.execJmpInd word s
  | .unknown op => Sys2Proof.Machine.execUnknown op s

end Sys2Proof.Machine
end

