-- ==== Sys2Proof/Machine/Step.lean ====
section
/-!
DEFINITION. The one transition of the machine, "execute one instruction" (spec/00_scope.md rule R5,
spec/43_dispatch.md rule R87), and the host's way of placing an instruction where the next step fetches it.
The transition as the spec's pseudocode prints it, fetch by fetch, is `executeOne` of Machine/ExecuteOne.lean.
-/

namespace Sys2Proof.Machine

/-- One step: the instruction at `PC` is run. The decoder is total (R60), so no step is refused. -/
def step (s : State) : Host.Outcome State Fault Refusal := exec (instrAtPc s) s

/-- `s` with the instruction whose bits are `w`, numbered as spec/opcode_table.json numbers them, stored at `PC`:
the host's load of a program (R116), which is how a program comes to run (log 12). -/
def State.withFetchWord (s : State) (nbits w : Nat) : State :=
  s.setMem (s.mem.storeBytes s.pc (tableBytes nbits w))

end Sys2Proof.Machine
end

