-- ==== Sys2Proof/Machine/ExecuteOne.lean ====
section
/-!
DEFINITION. The transition `executeOne` as the pseudocode of the spec prints it: the opcode is fetched, the arm is
chosen from the opcode byte alone, and each arm fetches its own operand bytes (spec/43_dispatch.md rule R87 and the
rules it names). `step` decodes first and runs the decoded instruction; that the two are the same function is a
statement of Certificates/Slice0/Obligations.lean.
-/

namespace Sys2Proof.Machine

/-- `resolveZeroPage()` with its fetch (R67). -/
def fetchZeroPage (s : State) : State := resolveZeroPage (fetchByte s).1 (fetchByte s).2

/-- `resolveZeroPageX()` with its fetch (R68). -/
def fetchZeroPageX (s : State) : State := resolveZeroPageX (fetchByte s).1 (fetchByte s).2

/-- `resolveAbsolute()` with its fetch (R69). -/
def fetchAbsolute (s : State) : State := resolveAbsolute (fetchWord s).1 (fetchWord s).2

/-- `resolveAbsoluteIndexed(R)` with its fetch (R70). -/
def fetchAbsoluteIndexed (r : Byte) (s : State) : State := resolveAbsoluteIndexed (fetchWord s).1 r (fetchWord s).2

/-- `resolveIndirect()` with its fetch (R71). -/
def fetchIndirect (s : State) : Except Fault State := resolveIndirect (fetchWord s).1 (fetchWord s).2

/-- `pc <- ABR[15:0]` after `resolveIndirect()` (R84). -/
def jumpIndirect (s : State) : Host.Outcome State Fault Refusal :=
  match fetchIndirect s with
  | .ok s' => .next (s'.setPc (BitVec.ofNat 16 s'.abr))
  | .error f => .fault f

/-- What stands after the opcode fetch in R87: `op` is the opcode byte, `pc0` its address, `s` the state after the
fetch, with the report cleared. -/
def dispatchOpcode (op : Byte) (pc0 : Word) (s : State) : Host.Outcome State Fault Refusal :=
  if op = s.cfg.opLdaImm then .next (loadA (fetchByte s).1 (fetchByte s).2)
  else if op = s.cfg.opLdaZp then loadFromAbr (fetchZeroPage s)
  else if op = s.cfg.opLdaZpx then loadFromAbr (fetchZeroPageX s)
  else if op = s.cfg.opLdaAbs then loadFromAbr (fetchAbsolute s)
  else if op = s.cfg.opLdaAbsx then loadFromAbr (fetchAbsoluteIndexed s.x s)
  else if op = s.cfg.opLdaAbsy then loadFromAbr (fetchAbsoluteIndexed s.y s)
  else if op = s.cfg.opJmpAbs then .next ((fetchWord s).2.setPc (fetchWord s).1)
  else if op = s.cfg.opJmpInd then jumpIndirect s
  else .next (reportUnknown op pc0 s)

/-- `executeOne()` (R87). -/
def executeOne (s : State) : Host.Outcome State Fault Refusal :=
  dispatchOpcode (fetchByte s).1 s.pc ((fetchByte s).2.setReport none)

end Sys2Proof.Machine
end

