-- ==== Sys2Proof/Machine/Interface.lean ====
section
/-!
DEFINITION. What the host, the caller outside the block, may do, and when: whole commands, between steps only
(spec/00_scope.md rules R4, R6; spec/70_reset_and_hazards.md rules R113, R116; D14, D20, log 16).
-/

namespace Sys2Proof.Machine

/-- `reset(memory)` as rule R113 prints it. It reads nothing of the old state and charges no cycles; the parameters of
the machine are no register and stay (log 11). After a fault it applies to the record of the fault (`hostAct`). -/
def resetCommand (s : State) : State :=
  { memInit s with
    pc := resetPc
    sp := 0x00, a := 0x00, x := 0x00, y := 0x00
    flagC := false, flagZ := false, flagI := false, flagD := false, flagB := false, flagO := false, flagN := false
    abr := 0
    cycleCount := 0
    report := none }

/-- The seven flags by name (R17). -/
inductive FlagName where
  | c | z | i | d | b | o | n
  deriving DecidableEq, Repr

/-- A flag written by the host: "each flag is independently readable/writable" (R17). -/
def State.setFlag (s : State) (f : FlagName) (v : Bool) : State :=
  match f with
  | .c => { s with flagC := v }
  | .z => { s with flagZ := v }
  | .i => { s with flagI := v }
  | .d => { s with flagD := v }
  | .b => { s with flagB := v }
  | .o => { s with flagO := v }
  | .n => { s with flagN := v }

/-- The commands of the host (R6) and its writes of single fields between steps (R24, D20). -/
inductive HostCommand where
  /-- the reset entry point -/
  | reset
  /-- the execute entry point -/
  | executeOne
  /-- `write(addr, value)` of the memory interface -/
  | write (addr : Nat) (v : Byte)
  | setPc (v : Word)
  | setSp (v : Byte)
  | setA (v : Byte)
  | setX (v : Byte)
  | setY (v : Byte)
  | setFlag (f : FlagName) (v : Bool)
  | setAbr (v : Nat)
  | setCycleCount (v : Nat)
  deriving DecidableEq, Repr

/-- The whole effect of one command. A host write outside the memory span faults as any access does (R31, R45). -/
def hostDo (s : State) : HostCommand → Host.Outcome State Fault Refusal
  | .reset => .next (resetCommand s)
  | .executeOne => step s
  | .write addr v =>
    match memWrite addr v s with
    | .ok s' => .next s'
    | .error f => .fault f
  | .setPc v => .next (s.setPc v)
  | .setSp v => .next { s with sp := v }
  | .setA v => .next (s.setA v)
  | .setX v => .next { s with x := v }
  | .setY v => .next { s with y := v }
  | .setFlag f v => .next (s.setFlag f v)
  | .setAbr v => .next (s.setAbr v)
  | .setCycleCount v => .next { s with cycleCount := v }

/-- The diagnostic outputs: `PC` and `CycleCount`; sampling changes nothing (R6, R109). -/
def diagnostics (s : State) : Word × Nat := (s.pc, s.cycleCount)

/-- One command given to a machine that runs or that a fault has ended. On a faulted machine "no further `executeOne` is
defined" and "only `reset` brings it back" (R97): reset applies to the record of the fault, from which it reads nothing
of the spec's state, and succeeds (R113); every other command leaves the machine faulted (DESIGN CHOICE, log 22). -/
def hostAct (o : Host.Outcome State Fault Refusal) (c : HostCommand) : Host.Outcome State Fault Refusal :=
  match o with
  | .next s => hostDo s c
  | .fault (.addressOutOfRange addr record) =>
    match c with
    | .reset => .next (resetCommand record)
    | .executeOne | .write _ _ | .setPc _ | .setSp _ | .setA _ | .setX _ | .setY _ | .setFlag _ _ | .setAbr _
    | .setCycleCount _ => .fault (.addressOutOfRange addr record)
  | .refused r => .refused r

/-- A session of the host: its commands one after another. A fault ends the run, and a later reset starts a new one
(R12, R97, R113, D15). -/
def hostSession (s : State) (cs : List HostCommand) : Host.Outcome State Fault Refusal := cs.foldl hostAct (.next s)

end Sys2Proof.Machine
end

