-- ==== Sys2Proof/Safety.lean ====
section
/-!
DEFINITION. The words in which claims about runs are made: a run of `k` steps, which step faults, when a run is safe,
the invariant of the step boundary, and outcomes compared up to some fields.
-/

namespace Sys2Proof.Machine

/-- The opcode byte at `PC` is `op`. -/
abbrev OpcodeAtPc (s : State) (op : Byte) : Prop := s.mem.byteAt s.pc.toNat = op

/-- The operand byte after the opcode, at `PC +16 1`, is `b`. -/
abbrev OperandByteAtPc (s : State) (b : Byte) : Prop := s.mem.byteAt (s.pc + 1).toNat = b

/-- The operand word after the opcode is `w`: its low byte stands at `PC +16 1`, its high byte at `PC +16 2`. -/
abbrev OperandWordAtPc (s : State) (w : Word) : Prop :=
  (s.mem.byteAt (s.pc + 1).toNat).toNat + 256 * (s.mem.byteAt (s.pc + 2).toNat).toNat = w.toNat

/-- `k` steps, "cut short only by a `Fault`" (R12). -/
def run (k : Nat) (s : State) : Host.Outcome State Fault Refusal := Host.Core.run Sys2Proof.core k s

/-- The state of a step that completed. -/
def nextOf : Host.Outcome State Fault Refusal → Option State
  | .next s => some s
  | .fault _ => none
  | .refused _ => none

/-- The fault of a step that faulted. -/
def faultOf : Host.Outcome State Fault Refusal → Option Fault
  | .next _ => none
  | .fault f => some f
  | .refused _ => none

/-- A run of `k` steps that no fault ends. -/
def SafeRun (k : Nat) (s : State) : Prop := ∃ t, run k s = .next t

/-- "The program stayed inside the implemented set" (R96): no step of the run reported an unknown opcode. -/
def StaysImplemented (k : Nat) (s : State) : Prop := ∀ j t, j < k → run (j + 1) s = .next t → t.report = none

/-- What holds at every step boundary that a run from a good state reaches. -/
structure Inv (s : State) : Prop where
  /-- the memory is in its canonical form, which says that it has no cell outside 0 to 65535 (R31) -/
  memWf : s.mem.wf = true
  /-- the parameters are those of some machine (R7) -/
  cfgWf : s.cfg.wf
  /-- `ABR <= 0x100FE` (R23) -/
  abrBound : s.abr ≤ 0x100FE
  /-- `N = 1` and `Z = 1` together cannot result from an `LDA` (R75) -/
  notNegativeZero : ¬ (s.flagN = true ∧ s.flagZ = true)

/-- A change of fields carried into an outcome: into the next state, or into the record at the fault. -/
def mapOutcome (f : State → State) : Host.Outcome State Fault Refusal → Host.Outcome State Fault Refusal
  | .next s => .next (f s)
  | .fault (.addressOutOfRange addr r) => .fault (.addressOutOfRange addr (f r))
  | .refused r => .refused r

end Sys2Proof.Machine
end

