-- ==== Sys2Proof/Certificates/Slice0/Obligations.lean ====
section
/-!
DEFINITION. The statements for the provers, in the terms of the model; OBLIGATIONS.json lists them.
Each docstring names the rule or the section of spec/ that the statement formalises. Where a clause rests on a decision
of the spec's own (spec/92_eei_decisions.md), on its general knowledge, or on a choice of the model, the docstring says
so and the statement is listed as derived.
-/

open Sys2Proof Sys2Proof.Machine

/-! ## Encoding -/

/-- One word of every row of the opcode map (spec/30_encoding.md sections 3 and 5) decodes, with the default
parameters, to the instruction it stands for. The opcode bytes are the spec's general knowledge (D1, G1; log 1). -/
def Obligations.SpecEncodingsDecode : Prop :=
  decode Config.default [0xA9, 0x80] = .ok (.ldaImm 0x80, []) ∧
  decode Config.default [0xA5, 0x08] = .ok (.ldaZp 0x08, []) ∧
  decode Config.default [0xB5, 0x80] = .ok (.ldaZpx 0x80, []) ∧
  decode Config.default [0xAD, 0x00, 0x30] = .ok (.ldaAbs 0x3000, []) ∧
  decode Config.default [0xBD, 0xFF, 0x30] = .ok (.ldaAbsx 0x30FF, []) ∧
  decode Config.default [0xB9, 0x01, 0xFF] = .ok (.ldaAbsy 0xFF01, []) ∧
  decode Config.default [0x4C, 0x3B, 0x12] = .ok (.jmpAbs 0x123B, []) ∧
  decode Config.default [0x6C, 0x00, 0x02] = .ok (.jmpInd 0x0200, []) ∧
  decode Config.default [0xEA, 0x85] = .ok (.unknown 0xEA, [0x85])

/-- For every assignment of pairwise distinct opcode bytes and every well-formed instruction, with every operand, the
encoded bytes decode to that instruction, whatever follows them (spec/30_encoding.md sections 1 to 3). -/
def Obligations.EncodedInstructionDecodesToItself : Prop :=
  ∀ (cfg : Config) (i : Instr) (rest : List Byte), cfg.wf → WellFormed cfg i = true →
    decode cfg (encode cfg i ++ rest) = .ok (i, rest)

/-- The other direction: whatever is decoded is a well-formed instruction, and the bytes it was read from are its
encoding, so no two lists of bytes of one length stand for one instruction (spec/30_encoding.md sections 1 to 4). -/
def Obligations.DecodedBytesAreTheEncoding : Prop :=
  ∀ (cfg : Config) (bs : List Byte) (i : Instr) (rest : List Byte), decode cfg bs = .ok (i, rest) →
    bs = encode cfg i ++ rest ∧ WellFormed cfg i = true

/-- Rule R88: the match is on the whole byte, by equality; with pairwise distinct opcode bytes exactly one arm matches;
an unimplemented byte always takes the `UNKNOWN` arm; and the form of the instruction that a step runs depends on the
byte at `PC` and the parameters alone. -/
def Obligations.WholeOpcodeByteSelectsTheArm : Prop :=
  (∀ (cfg : Config) (op : Byte), cfg.wf →
    (cfg.form op = .ldaImm ↔ op = cfg.opLdaImm) ∧ (cfg.form op = .ldaZp ↔ op = cfg.opLdaZp) ∧
    (cfg.form op = .ldaZpx ↔ op = cfg.opLdaZpx) ∧ (cfg.form op = .ldaAbs ↔ op = cfg.opLdaAbs) ∧
    (cfg.form op = .ldaAbsx ↔ op = cfg.opLdaAbsx) ∧ (cfg.form op = .ldaAbsy ↔ op = cfg.opLdaAbsy) ∧
    (cfg.form op = .jmpAbs ↔ op = cfg.opJmpAbs) ∧ (cfg.form op = .jmpInd ↔ op = cfg.opJmpInd) ∧
    (cfg.form op = .unknown ↔ op ∉ cfg.opcodes)) ∧
  (∀ s : State, step s = exec (instrAtPc s) s ∧ (instrAtPc s).form = s.cfg.form (s.mem.byteAt s.pc.toNat))

/-- Rule R56: the opcode byte alone decides the length; 2 for the formats with one operand byte, 3 for those with an
operand word, 1 for every other byte. After an unknown byte the next step's opcode is the byte after it, whatever its
length on the MOS 6502. -/
def Obligations.OpcodeByteAloneDecidesLength : Prop :=
  (∀ (cfg : Config) (op : Byte) (tail : List Byte) (i : Instr) (rest : List Byte),
    decode cfg (op :: tail) = .ok (i, rest) →
    tail.length + 1 = rest.length +
      (if op ∈ [cfg.opLdaImm, cfg.opLdaZp, cfg.opLdaZpx] then 2
       else if op ∈ [cfg.opLdaAbs, cfg.opLdaAbsx, cfg.opLdaAbsy, cfg.opJmpAbs, cfg.opJmpInd] then 3 else 1)) ∧
  (∀ (s t : State) (op : Byte), op ∉ s.cfg.opcodes → OpcodeAtPc s op → step s = .next t → t.pc = s.pc + 1)

/-- "248 of the 256 values" are unknown and eight are implemented, for every assignment of pairwise distinct opcode
bytes (spec/30_encoding.md section 4; the count check of spec/95_test_vectors.md section 2.5). -/
def Obligations.EightBytesImplemented248Unknown : Prop :=
  ∀ cfg : Config, cfg.wf →
    (((List.range 256).map (BitVec.ofNat 8)).filter (fun op => decide (cfg.form op ≠ .unknown))).length = 8 ∧
    (((List.range 256).map (BitVec.ofNat 8)).filter (fun op => decide (cfg.form op = .unknown))).length = 248

/-- Rule R60: the decoder is total on any byte; no step is refused; and whatever the opcode byte is, the step completes
once the index registers are 0 and the operand word is not 0xFFFF: the fault "depends on operand and register values,
not on the encoding". -/
def Obligations.NoEncodingStopsTheMachine : Prop :=
  (∀ (cfg : Config) (op b1 b2 : Byte) (rest : List Byte), ∃ i rest', decode cfg (op :: b1 :: b2 :: rest) = .ok (i, rest')) ∧
  (∀ (s : State) (r : Refusal), step s ≠ .refused r) ∧
  (∀ s : State, s.x = 0 → s.y = 0 → ¬ OperandWordAtPc s 0xFFFF → ∃ t, step s = .next t)

/-! ## Reset -/

/-- Rules R113 and R25: what reset leaves in every register and every cell, from any state; it always succeeds. The
state that the machine starts in holds the same values. -/
def Obligations.ResetGivesEveryRegisterAndCell : Prop :=
  ∀ s : State, hostDo s .reset = .next (resetCommand s) ∧
    ∀ r ∈ [resetCommand s, State.reset],
      r.pc = 0xFFFC ∧ r.sp = 0 ∧ r.a = 0 ∧ r.x = 0 ∧ r.y = 0 ∧
      r.flagC = false ∧ r.flagZ = false ∧ r.flagI = false ∧ r.flagD = false ∧ r.flagB = false ∧ r.flagO = false ∧
      r.flagN = false ∧ r.abr = 0 ∧ r.cycleCount = 0 ∧ ∀ addr, r.mem.byteAt addr = 0x00

/-- Resetting twice in a row yields the same state and an all-zero memory each time (spec/70_reset_and_hazards.md rule
R114). The second clause is that rule's sentence "the state after `reset` does not depend on the state before it at all",
an inference of the spec from rule R113; that reset keeps the parameters, hence the premise `s.cfg = t.cfg`, and that it
clears the report, is the model's choice (log 11). -/
def Obligations.ResetIsIdempotent : Prop :=
  (∀ s : State, resetCommand (resetCommand s) = resetCommand s ∧
    ∀ addr, (resetCommand (resetCommand s)).mem.byteAt addr = 0x00) ∧
  (∀ s t : State, s.cfg = t.cfg → resetCommand s = resetCommand t)

/-- The bytes at 0xFFFC, 0xFFFD, 0xFFFE are run as an instruction by the first step after reset, whatever memory the
host has loaded; 0xFFFC is never read as an address (spec/70_reset_and_hazards.md section 1, a resolution of
spec/90_conflicts.md C1; log 12). The instruction placed by `withFetchWord` is the one that runs. -/
def Obligations.FirstStepRunsTheBytesAtTheResetVector : Prop :=
  (∀ m : Memory, ∀ i rest, decode Config.default [m.byteAt 0xFFFC, m.byteAt 0xFFFD, m.byteAt 0xFFFE] = .ok (i, rest) →
    step (State.reset.setMem m) = exec i (State.reset.setMem m)) ∧
  (∀ (nbits w : Nat) (i : Instr), decodeTableWord nbits w = some i →
    step (State.reset.withFetchWord nbits w) = exec i (State.reset.withFetchWord nbits w))

/-! ## The step -/

/-- When the bytes at `PC`, `PC +16 1`, `PC +16 2` decode to an instruction, the step is that instruction's meaning at
the same state; nothing stands around it (spec/43_dispatch.md section on `executeOne`). -/
def Obligations.StepRunsTheDecodedInstruction : Prop :=
  ∀ (s : State) (i : Instr) (rest : List Byte),
    decode s.cfg [s.mem.byteAt s.pc.toNat, s.mem.byteAt (s.pc + 1).toNat, s.mem.byteAt (s.pc + 2).toNat] = .ok (i, rest) →
    step s = exec i s

/-- Rule R87: decode first and run the decoded instruction, or fetch the opcode, choose the arm and let the arm fetch
its own operands through `PC`, as the pseudocode prints it: the two are one function, also where the step faults. -/
def Obligations.StepRefinesExecuteOne : Prop := ∀ s : State, step s = executeOne s

/-! ## `LDA`: the whole effect of each form -/

/-- `LDA` Immediate, the next state in full: no other field changes (spec/41_load_accumulator.md rule R76). That `ABR`
stays is the spec's decision D11 (log 10). -/
def Obligations.LdaImmediateEffect : Prop :=
  ∀ (s : State) (imm8 : Byte),
    let t : State := { s with a := imm8, flagN := imm8.getLsbD 7, flagZ := decide (imm8 = 0), pc := s.pc + 2,
                              cycleCount := s.cycleCount + 2, report := none }
    exec (.ldaImm imm8) s = .next t ∧
    (s.cfg.wf → OpcodeAtPc s s.cfg.opLdaImm → OperandByteAtPc s imm8 → step s = .next t)

/-- Rule R77, the next state in full. -/
def Obligations.LdaZeroPageEffect : Prop :=
  ∀ (s : State) (zp8 : Byte),
    let v := s.mem.byteAt zp8.toNat
    let t : State := { s with a := v, flagN := v.getLsbD 7, flagZ := decide (v = 0), pc := s.pc + 2,
                              cycleCount := s.cycleCount + 3, abr := zp8.toNat, report := none }
    exec (.ldaZp zp8) s = .next t ∧
    (s.cfg.wf → OpcodeAtPc s s.cfg.opLdaZp → OperandByteAtPc s zp8 → step s = .next t)

/-- Rule R78, the next state in full, under both settings of `ZPX_REMASK`. -/
def Obligations.LdaZeroPageXEffect : Prop :=
  ∀ (s : State) (zp8 : Byte),
    let ea := if s.cfg.zpxRemask then (zp8.toNat + s.x.toNat) % 256 else zp8.toNat + s.x.toNat
    let v := s.mem.byteAt ea
    let t : State := { s with a := v, flagN := v.getLsbD 7, flagZ := decide (v = 0), pc := s.pc + 2,
                              cycleCount := s.cycleCount + 4, abr := ea, report := none }
    exec (.ldaZpx zp8) s = .next t ∧
    (s.cfg.wf → OpcodeAtPc s s.cfg.opLdaZpx → OperandByteAtPc s zp8 → step s = .next t)

/-- Rule R79, the next state in full. -/
def Obligations.LdaAbsoluteEffect : Prop :=
  ∀ (s : State) (word : Word),
    let v := s.mem.byteAt word.toNat
    let t : State := { s with a := v, flagN := v.getLsbD 7, flagZ := decide (v = 0), pc := s.pc + 3,
                              cycleCount := s.cycleCount + 4, abr := word.toNat, report := none }
    exec (.ldaAbs word) s = .next t ∧
    (s.cfg.wf → OpcodeAtPc s s.cfg.opLdaAbs → OperandWordAtPc s word → step s = .next t)

/-- `LDA` Absolute,X, the next state in full where `word + X` is in range, and the fault, with `A`, `N`, `Z` unchanged in
its record, where it is not (spec/41_load_accumulator.md rule R80). When a page is crossed is the spec's general knowledge
(G4, log 3), that the access faults is its decision D7 (log 9), what the record holds its decision D12 (log 6). -/
def Obligations.LdaAbsoluteXEffect : Prop :=
  ∀ (s : State) (word : Word),
    let ea := word.toNat + s.x.toNat
    let v := s.mem.byteAt ea
    let extra := if ea / 256 = word.toNat / 256 then 0 else s.cfg.pageCrossExtra.val
    let t : State := { s with a := v, flagN := v.getLsbD 7, flagZ := decide (v = 0), pc := s.pc + 3,
                              cycleCount := s.cycleCount + 4 + extra, abr := ea, report := none }
    (ea ≤ 0xFFFF → exec (.ldaAbsx word) s = .next t) ∧
    (0xFFFF < ea → ∃ r, exec (.ldaAbsx word) s = .fault (.addressOutOfRange ea r) ∧
      r.a = s.a ∧ r.flagN = s.flagN ∧ r.flagZ = s.flagZ) ∧
    (s.cfg.wf → OpcodeAtPc s s.cfg.opLdaAbsx → OperandWordAtPc s word → step s = exec (.ldaAbsx word) s)

/-- `LDA` Absolute,Y, as Absolute,X with `Y` for `X` (spec/41_load_accumulator.md rule R81), resting on the same: general
knowledge G4 (log 3), decisions D7 (log 9) and D12 (log 6). -/
def Obligations.LdaAbsoluteYEffect : Prop :=
  ∀ (s : State) (word : Word),
    let ea := word.toNat + s.y.toNat
    let v := s.mem.byteAt ea
    let extra := if ea / 256 = word.toNat / 256 then 0 else s.cfg.pageCrossExtra.val
    let t : State := { s with a := v, flagN := v.getLsbD 7, flagZ := decide (v = 0), pc := s.pc + 3,
                              cycleCount := s.cycleCount + 4 + extra, abr := ea, report := none }
    (ea ≤ 0xFFFF → exec (.ldaAbsy word) s = .next t) ∧
    (0xFFFF < ea → ∃ r, exec (.ldaAbsy word) s = .fault (.addressOutOfRange ea r) ∧
      r.a = s.a ∧ r.flagN = s.flagN ∧ r.flagZ = s.flagZ) ∧
    (s.cfg.wf → OpcodeAtPc s s.cfg.opLdaAbsy → OperandWordAtPc s word → step s = exec (.ldaAbsy word) s)

/-! ## `JMP` and `UNKNOWN`: the whole effect -/

/-- `JMP` Absolute, the next state in full (spec/42_jump.md). That `ABR` stays is the spec's decision D11 (log 10). -/
def Obligations.JmpAbsoluteEffect : Prop :=
  ∀ (s : State) (word : Word),
    let t : State := { s with pc := word, cycleCount := s.cycleCount + 3, report := none }
    exec (.jmpAbs word) s = .next t ∧
    (s.cfg.wf → OpcodeAtPc s s.cfg.opJmpAbs → OperandWordAtPc s word → step s = .next t)

/-- `JMP` Indirect, the next state in full for every pointer but 0xFFFF, and the fault for that one (spec/42_jump.md).
That the high byte is read at `pointer + 1` also at the end of a page, and that `pointer + 1` does not wrap, are the
spec's decisions D9 and D8 (log 9). -/
def Obligations.JmpIndirectEffect : Prop :=
  ∀ (s : State) (word : Word),
    let target := (s.mem.byteAt word.toNat).toNat + 256 * (s.mem.byteAt (word.toNat + 1)).toNat
    let t : State := { s with pc := BitVec.ofNat 16 target, cycleCount := s.cycleCount + 5, abr := target, report := none }
    (word ≠ 0xFFFF → exec (.jmpInd word) s = .next t) ∧
    (word = 0xFFFF → ∃ r, exec (.jmpInd word) s = .fault (.addressOutOfRange 0x10000 r)) ∧
    (s.cfg.wf → OpcodeAtPc s s.cfg.opJmpInd → OperandWordAtPc s word → step s = exec (.jmpInd word) s)

/-- An unknown byte consumes one byte and one cycle, is reported with the address it was fetched from, and changes
nothing else; the step completes (spec/43_dispatch.md rule R91). The form of the report is the spec's decision D13 and its
home, a field of State, the model's choice (log 5); that `ABR` stays is the spec's decision D11 (log 10). -/
def Obligations.UnknownOpcodeEffect : Prop :=
  ∀ (s : State) (op : Byte),
    let t : State := { s with pc := s.pc + 1, cycleCount := s.cycleCount + 1, report := some (.unknownOpcode op s.pc) }
    exec (.unknown op) s = .next t ∧ (op ∉ s.cfg.opcodes → OpcodeAtPc s op → step s = .next t)

/-! ## Flags -/

/-- Rule R75: after any `LDA`, `N` and `Z` are a function of the loaded byte alone, by the rule's table, and the other
five flags are not touched. -/
def Obligations.LoadSetsNegativeAndZeroOnly : Prop :=
  (∀ (s t : State) (v : Byte), (s.setNZ v).flagN = (t.setNZ v).flagN ∧ (s.setNZ v).flagZ = (t.setNZ v).flagZ) ∧
  ∀ (i : Instr) (s t : State), i.isLda = true → exec i s = .next t →
    t.flagN = t.a.getLsbD 7 ∧ (t.flagZ = true ↔ t.a = 0) ∧
    (t.a = 0x00 → t.flagN = false ∧ t.flagZ = true) ∧
    (1 ≤ t.a.toNat ∧ t.a.toNat ≤ 0x7F → t.flagN = false ∧ t.flagZ = false) ∧
    (0x80 ≤ t.a.toNat → t.flagN = true ∧ t.flagZ = false) ∧
    t.flagC = s.flagC ∧ t.flagI = s.flagI ∧ t.flagD = s.flagD ∧ t.flagB = s.flagB ∧ t.flagO = s.flagO

/-- Rule R18: `N` and `Z` are written by every form of `LDA` and by nothing else, and no instruction reads them: with
other values in them before the step, the step is the same but for an `N` and a `Z` that it leaves alone. -/
def Obligations.NegativeAndZeroWrittenByLoadsReadByNone : Prop :=
  ∀ (i : Instr) (s : State) (n z : Bool),
    (i.isLda = true → ∀ t, exec i s = .next t → t.flagN = t.a.getLsbD 7 ∧ t.flagZ = decide (t.a = 0)) ∧
    (i.isLda = false → ∀ t, exec i s = .next t → t.flagN = s.flagN ∧ t.flagZ = s.flagZ) ∧
    (i.isLda = true → ∀ t, exec i s = .next t → exec i { s with flagN := n, flagZ := z } = .next t) ∧
    ((i.isLda = false ∨ ∃ f, exec i s = .fault f) →
      exec i { s with flagN := n, flagZ := z } = mapOutcome (fun t => { t with flagN := n, flagZ := z }) (exec i s))

/-- Rules R16, R19, R20: `SP`, `C`, `O` and the placeholders `I`, `D`, `B` are written by no instruction and read by
none, and they are 0 after reset and keep their values over any run. -/
def Obligations.StackPointerAndInertFlagsNeitherReadNorWritten : Prop :=
  (∀ (i : Instr) (s : State) (sp : Byte) (c iFlag d b o : Bool),
    exec i { s with sp := sp, flagC := c, flagI := iFlag, flagD := d, flagB := b, flagO := o } =
      mapOutcome (fun t => { t with sp := sp, flagC := c, flagI := iFlag, flagD := d, flagB := b, flagO := o }) (exec i s)) ∧
  (∀ (k : Nat) (s t : State), run k s = .next t →
    t.sp = s.sp ∧ t.flagC = s.flagC ∧ t.flagI = s.flagI ∧ t.flagD = s.flagD ∧ t.flagB = s.flagB ∧ t.flagO = s.flagO) ∧
  (State.reset.sp = 0 ∧ State.reset.flagC = false ∧ State.reset.flagI = false ∧ State.reset.flagD = false ∧
    State.reset.flagB = false ∧ State.reset.flagO = false)

/-! ## Registers and frames -/

/-- Rule R123: a program cannot change `X`, `Y`, `SP`, `C`, `I`, `D`, `B`, `O`, over any number of steps, so an indexed
`LDA` on a machine whose index registers are 0 (as reset leaves them) loads from its base address. -/
def Obligations.ProgramCannotChangeIndexRegisters : Prop :=
  (State.reset.x = 0 ∧ State.reset.y = 0) ∧
  ∀ (k : Nat) (s t : State), run k s = .next t →
    t.x = s.x ∧ t.y = s.y ∧ t.sp = s.sp ∧ t.flagC = s.flagC ∧ t.flagI = s.flagI ∧ t.flagD = s.flagD ∧
    t.flagB = s.flagB ∧ t.flagO = s.flagO ∧
    (s.x = 0 → ∀ (zp8 : Byte) (word : Word),
      (∃ u, exec (.ldaZpx zp8) t = .next u ∧ u.a = t.mem.byteAt zp8.toNat) ∧
      (∃ u, exec (.ldaAbsx word) t = .next u ∧ u.a = t.mem.byteAt word.toNat)) ∧
    (s.y = 0 → ∀ word : Word, ∃ u, exec (.ldaAbsy word) t = .next u ∧ u.a = t.mem.byteAt word.toNat)

/-- Who reads `X`, `Y` and `A` (spec/10_state.md section 10): only `LDA` Zero Page,X and Absolute,X read `X`, only
Absolute,Y reads `Y`, nothing reads `A`. -/
def Obligations.OnlyIndexedLoadsReadIndexRegisters : Prop :=
  ∀ (i : Instr) (s : State) (v : Byte),
    (i.form ≠ .ldaZpx → i.form ≠ .ldaAbsx →
      exec i { s with x := v } = mapOutcome (fun t => { t with x := v }) (exec i s)) ∧
    (i.form ≠ .ldaAbsy → exec i { s with y := v } = mapOutcome (fun t => { t with y := v }) (exec i s)) ∧
    ((i.isLda = false ∨ ∃ f, exec i s = .fault f) →
      exec i { s with a := v } = mapOutcome (fun t => { t with a := v }) (exec i s)) ∧
    (i.isLda = true → ∀ t, exec i s = .next t → exec i { s with a := v } = .next t)

/-- The frame of the six `LDA` forms (spec/10_state.md section 10): besides `A`, `N`, `Z`, `PC`, `CycleCount` and, for
the memory forms, `ABR`, nothing changes. That `LDA` Immediate leaves `ABR` is decision D11 (log 10). -/
def Obligations.LoadFrame : Prop :=
  ∀ (i : Instr) (s t : State), i.isLda = true → exec i s = .next t →
    t.x = s.x ∧ t.y = s.y ∧ t.sp = s.sp ∧
    t.flagC = s.flagC ∧ t.flagI = s.flagI ∧ t.flagD = s.flagD ∧ t.flagB = s.flagB ∧ t.flagO = s.flagO ∧
    (i.form = .ldaImm → t.abr = s.abr) ∧ t.cfg = s.cfg ∧ t.report = none ∧
    ∀ addr, t.mem.byteAt addr = s.mem.byteAt addr

/-- The frame of `JMP` and `UNKNOWN` (spec/10_state.md section 10): besides `PC`, `CycleCount`, the report and, for
`JMP` Indirect, `ABR`, nothing changes. That the other two leave `ABR` is decision D11 (log 10). -/
def Obligations.JumpAndUnknownFrame : Prop :=
  ∀ (i : Instr) (s t : State), i.isLda = false → exec i s = .next t →
    t.a = s.a ∧ t.x = s.x ∧ t.y = s.y ∧ t.sp = s.sp ∧
    t.flagC = s.flagC ∧ t.flagZ = s.flagZ ∧ t.flagI = s.flagI ∧ t.flagD = s.flagD ∧ t.flagB = s.flagB ∧
    t.flagO = s.flagO ∧ t.flagN = s.flagN ∧
    (i.form ≠ .jmpInd → t.abr = s.abr) ∧ t.cfg = s.cfg ∧ (i.form ≠ .unknown → t.report = none) ∧
    ∀ addr, t.mem.byteAt addr = s.mem.byteAt addr

/-- The engine never writes memory, over any run, also in a run that a fault ends (spec/20_memory.md section 1, an
inference of the spec). -/
def Obligations.EngineNeverWritesMemory : Prop :=
  ∀ (k : Nat) (s : State),
    (∀ t, run k s = .next t → t.mem = s.mem) ∧
    (∀ addr r, run k s = .fault (.addressOutOfRange addr r) → r.mem = s.mem)

/-! ## Program counter and cycles -/

/-- `PC` after each instruction, and in the record of a step that faults (the table of spec/10_state.md section 3; the
additions wrap by decision D5, log 7, and the record is that of decision D12, log 6). -/
def Obligations.ProgramCounterAfterEachInstruction : Prop :=
  ∀ (i : Instr) (s : State),
    (∀ t, exec i s = .next t →
      match i with
      | .ldaImm _ => t.pc = s.pc + 2
      | .ldaZp _ => t.pc = s.pc + 2
      | .ldaZpx _ => t.pc = s.pc + 2
      | .ldaAbs _ => t.pc = s.pc + 3
      | .ldaAbsx _ => t.pc = s.pc + 3
      | .ldaAbsy _ => t.pc = s.pc + 3
      | .jmpAbs word => t.pc = word
      | .jmpInd word =>
        t.pc.toNat = (s.mem.byteAt word.toNat).toNat + 256 * (s.mem.byteAt (word.toNat + 1)).toNat
      | .unknown _ => t.pc = s.pc + 1) ∧
    (∀ addr r, exec i s = .fault (.addressOutOfRange addr r) → r.pc = s.pc + 3)

/-- The increment of `CycleCount` by each instruction (spec/70_reset_and_hazards.md section 4; totals that the spec
infers, but for `LDA` Zero Page). When an indexed load crosses a page, the page of the sum against the page of the word,
is the spec's general knowledge (spec/40_addressing_modes.md rule R70, G4; log 3). -/
def Obligations.CyclesOfEachInstruction : Prop :=
  ∀ (i : Instr) (s t : State), exec i s = .next t →
    match i with
    | .ldaImm _ => t.cycleCount = s.cycleCount + 2
    | .ldaZp _ => t.cycleCount = s.cycleCount + 3
    | .ldaZpx _ => t.cycleCount = s.cycleCount + 4
    | .ldaAbs _ => t.cycleCount = s.cycleCount + 4
    | .ldaAbsx word => t.cycleCount = s.cycleCount + 4 +
        (if (word.toNat + s.x.toNat) / 256 = word.toNat / 256 then 0 else s.cfg.pageCrossExtra.val)
    | .ldaAbsy word => t.cycleCount = s.cycleCount + 4 +
        (if (word.toNat + s.y.toNat) / 256 = word.toNat / 256 then 0 else s.cfg.pageCrossExtra.val)
    | .jmpAbs _ => t.cycleCount = s.cycleCount + 3
    | .jmpInd _ => t.cycleCount = s.cycleCount + 5
    | .unknown _ => t.cycleCount = s.cycleCount + 1

/-- `CycleCount` only grows, by at least 1 and at most 5 in each step of a run (spec/10_state.md section 7; it never
wraps, decision D10, log 8). -/
def Obligations.CycleCountGrowsWithEveryStep : Prop :=
  ∀ (k : Nat) (s t : State), run k s = .next t →
    s.cycleCount + k ≤ t.cycleCount ∧ t.cycleCount ≤ s.cycleCount + 5 * k

/-! ## The two events -/

/-- Which instruction faults, with which address, and which one reports (spec/60_exceptions.md sections 1 and 3,
inferences of the spec): a step faults exactly where an indexed sum passes 0xFFFF or the pointer is 0xFFFF; a report
is made exactly by `UNKNOWN`; no step does both. -/
def Obligations.FaultAndReportConditions : Prop :=
  ∀ (i : Instr) (s : State),
    (∀ addr, (∃ r, exec i s = .fault (.addressOutOfRange addr r)) ↔
      match i with
      | .ldaAbsx word => addr = word.toNat + s.x.toNat ∧ 0x10000 ≤ addr
      | .ldaAbsy word => addr = word.toNat + s.y.toNat ∧ 0x10000 ≤ addr
      | .jmpInd word => word = 0xFFFF ∧ addr = 0x10000
      | .ldaImm _ | .ldaZp _ | .ldaZpx _ | .ldaAbs _ | .jmpAbs _ | .unknown _ => False) ∧
    (∀ t, exec i s = .next t → (t.report ≠ none ↔ i.form = .unknown)) ∧
    (∀ addr r, exec i s = .fault (.addressOutOfRange addr r) → r.report = none)

/-- The register record at the fault, by the table of spec/60_exceptions.md section 1 (decision D12, "for definiteness":
no claim about a run should read it; log 6). -/
def Obligations.RegisterRecordAtTheFault : Prop :=
  ∀ (i : Instr) (s r : State) (addr : Nat), exec i s = .fault (.addressOutOfRange addr r) →
    (i.form = .jmpInd ∧ r = { s with pc := s.pc + 3, cycleCount := s.cycleCount + 4, report := none }) ∨
    ((i.form = .ldaAbsx ∨ i.form = .ldaAbsy) ∧
      r = { s with pc := s.pc + 3, cycleCount := s.cycleCount + 3 + s.cfg.pageCrossExtra.val, abr := addr, report := none })

/-- A step reports exactly when the byte at `PC` is not implemented, the report names that byte and the address it was
fetched from, and what an earlier step reported changes no later outcome (spec/60_exceptions.md section 1; the form of the
report, and that it does not stick, is decision D13, log 5). -/
def Obligations.ReportNamesTheUnknownByteAndDoesNotStick : Prop :=
  (∀ s t : State, step s = .next t →
    t.report = if s.mem.byteAt s.pc.toNat ∈ s.cfg.opcodes then none
      else some (.unknownOpcode (s.mem.byteAt s.pc.toNat) s.pc)) ∧
  (∀ (k : Nat) (s : State) (r : Option Report), run (k + 1) (s.setReport r) = run (k + 1) s)

/-- "The program stayed inside the implemented set" (spec/60_exceptions.md section 1): no step of the run reported, which
is to say that every step of the run that completed had an implemented byte at its `PC`. -/
def Obligations.RunStaysImplementedWhenItsOpcodesAre : Prop :=
  ∀ (k : Nat) (s : State), StaysImplemented k s ↔
    ∀ j t u, j < k → run j s = .next t → step t = .next u → t.mem.byteAt t.pc.toNat ∈ t.cfg.opcodes

/-- A run of any length is safe or ends in the one fault, with an address from 0x10000 to 0x100FE (the event table of
spec/60_exceptions.md section 1, and spec/70_reset_and_hazards.md section 3; decision D7, log 9). -/
def Obligations.RunIsSafeOrEndsOutOfRange : Prop :=
  ∀ (k : Nat) (s : State), SafeRun k s ∨
    ∃ addr r, run k s = .fault (.addressOutOfRange addr r) ∧ 0x10000 ≤ addr ∧ addr ≤ 0x100FE

/-! ## Memory and the access primitives -/

/-- Rules R33 and R34: a read returns the cell and changes nothing; a write stores the value at its address, changes no
other cell and no register; both raise `AddressOutOfRange(addr)` exactly from 65536 on ("the reference behavior in scope
here is hard fault"). A step issues no write. -/
def Obligations.MemoryReadAndWrite : Prop :=
  ∀ (s : State) (addr : Nat) (v : Byte),
    (addr < 65536 → memRead addr s = .ok (s.mem.byteAt addr)) ∧
    (addr < 65536 → s.mem.wf = true →
      ∃ m, memWrite addr v s = .ok { s with mem := m } ∧ hostDo s (.write addr v) = .next { s with mem := m } ∧
        m.byteAt addr = v ∧ ∀ other, other ≠ addr → m.byteAt other = s.mem.byteAt other) ∧
    (65536 ≤ addr →
      memRead addr s = .error (.addressOutOfRange addr s) ∧ memWrite addr v s = .error (.addressOutOfRange addr s) ∧
      hostDo s (.write addr v) = .fault (.addressOutOfRange addr s)) ∧
    (∀ t, step s = .next t → t.mem = s.mem)

/-- Rule R42: a word written as two bytes, low then high, at consecutive addresses is what `readWord` and `fetchWord`
give back, and the operand word of every instruction at `PC` that has one, whichever of the five forms it is, is made of
the byte after the opcode (low) and the one after that (high). -/
def Obligations.LittleEndianRoundTrip : Prop :=
  (∀ (s s1 s2 : State) (addr w : Word), s.mem.wf = true → addr.toNat ≤ 0xFFFE →
    memWrite addr.toNat (w.extractLsb' 0 8) s = .ok s1 → memWrite (addr.toNat + 1) (w.extractLsb' 8 8) s1 = .ok s2 →
    readWord addr.toNat s2 = .ok (w, { s2 with cycleCount := s2.cycleCount + 2 }) ∧
    (fetchWord (s2.setPc addr)).1 = w) ∧
  (∀ (s : State) (w : Word), s.cfg.wf → s.mem.byteAt (s.pc + 1).toNat = w.extractLsb' 0 8 →
    s.mem.byteAt (s.pc + 2).toNat = w.extractLsb' 8 8 →
    (OpcodeAtPc s s.cfg.opLdaAbs → instrAtPc s = .ldaAbs w) ∧
    (OpcodeAtPc s s.cfg.opLdaAbsx → instrAtPc s = .ldaAbsx w) ∧
    (OpcodeAtPc s s.cfg.opLdaAbsy → instrAtPc s = .ldaAbsy w) ∧
    (OpcodeAtPc s s.cfg.opJmpAbs → instrAtPc s = .jmpAbs w) ∧
    (OpcodeAtPc s s.cfg.opJmpInd → instrAtPc s = .jmpInd w))

/-- The four primitives of the engine, value and effect (spec/20_memory.md section 2). The wrap of `PC` is decision D5,
the exact `addr + 1` of `readWord` decision D8, the uncharged faulting read decision D12 (logs 7, 9, 6). -/
def Obligations.EngineAccessPrimitives : Prop :=
  ∀ s : State,
    fetchByte s = (s.mem.byteAt s.pc.toNat, { s with pc := s.pc + 1, cycleCount := s.cycleCount + 1 }) ∧
    ((fetchWord s).1.toNat = (s.mem.byteAt s.pc.toNat).toNat + 256 * (s.mem.byteAt (s.pc + 1).toNat).toNat ∧
      (fetchWord s).2 = { s with pc := s.pc + 2, cycleCount := s.cycleCount + 2 }) ∧
    (∀ addr, addr < 65536 → readByte addr s = .ok (s.mem.byteAt addr, { s with cycleCount := s.cycleCount + 1 })) ∧
    (∀ addr, 65536 ≤ addr → readByte addr s = .error (.addressOutOfRange addr s)) ∧
    (∀ addr, addr < 65535 → ∃ w, readWord addr s = .ok (w, { s with cycleCount := s.cycleCount + 2 }) ∧
      w.toNat = (s.mem.byteAt addr).toNat + 256 * (s.mem.byteAt (addr + 1)).toNat) ∧
    readWord 65535 s = .error (.addressOutOfRange 65536 { s with cycleCount := s.cycleCount + 1 })

/-- A host write between two steps is seen by the next fetch of that cell, and by no other, with no fence
(spec/20_memory.md section 9). -/
def Obligations.NextFetchSeesTheHostWrite : Prop :=
  ∀ (s t : State) (addr : Nat) (v : Byte), s.mem.wf = true → memWrite addr v s = .ok t →
    ∀ k, streamByte t k = if (s.pc + BitVec.ofNat 16 k).toNat = addr then v else streamByte s k

/-- The canonical form says as much as the bytes do: two memories in canonical form that read alike at every address
are the same list (the model's form of memory, log 13). -/
def Obligations.CanonicalMemoryIsDeterminedByItsBytes : Prop :=
  ∀ m m' : Memory, m.wf = true → m'.wf = true → (∀ addr, m.byteAt addr = m'.byteAt addr) → m = m'

/-! ## The resolver -/

/-- The range of `ABR` after each mode, and that the data read through it stays in range (spec/40_addressing_modes.md,
the range table, an inference of the spec; the re-mask is decision D3). -/
def Obligations.EffectiveAddressRanges : Prop :=
  ∀ (i : Instr) (s t : State), exec i s = .next t →
    match i with
    | .ldaZp _ => t.abr ≤ 0xFF
    | .ldaZpx _ => t.abr ≤ 0x1FE ∧ (s.cfg.zpxRemask = true → t.abr ≤ 0xFF)
    | .ldaAbs _ => t.abr ≤ 0xFFFF
    | .ldaAbsx _ => t.abr ≤ 0xFFFF
    | .ldaAbsy _ => t.abr ≤ 0xFFFF
    | .jmpInd _ => t.abr ≤ 0xFFFF ∧ t.pc.toNat = t.abr
    | .ldaImm _ => t.abr = s.abr
    | .jmpAbs _ => t.abr = s.abr
    | .unknown _ => t.abr = s.abr

/-! ## Invariants and whole-machine rules -/

/-- The invariant holds after reset: canonical memory, distinct opcode bytes, `ABR` in its range, `N` and `Z` not both
set (spec/10_state.md section 8, spec/41_load_accumulator.md). -/
def Obligations.InvariantHoldsAtReset : Prop := Inv State.reset

/-- Every step keeps the invariant, from every state that has it (spec/10_state.md section 8,
spec/41_load_accumulator.md: `N = 1` and `Z = 1` cannot both result from an `LDA`). -/
def Obligations.EveryStepKeepsTheInvariant : Prop := ∀ s t : State, Inv s → step s = .next t → Inv t

/-- No host command, in range or not, breaks the canonical form of memory or changes the parameters of the machine
(spec/00_scope.md sections 6 and 7; logs 4, 13, 16). -/
def Obligations.HostCommandsKeepMemoryCanonical : Prop :=
  ∀ (s t : State) (c : HostCommand), s.mem.wf = true → hostDo s c = .next t → t.mem.wf = true ∧ t.cfg = s.cfg

/-- `ABR` is dead at every step boundary: whatever value it holds, it influences no other field of any later state, no
report and no fault, over any run (spec/10_state.md section 6, an inference of the spec). -/
def Obligations.AbrIsDeadBetweenSteps : Prop :=
  ∀ (k : Nat) (s : State) (n : Nat),
    mapOutcome (fun t => t.setAbr 0) (run k (s.setAbr n)) = mapOutcome (fun t => t.setAbr 0) (run k s)

/-- Rule R127: nothing depends on time. With another count at the start and another `PAGE_CROSS_EXTRA` every run is the
same but for the count (and the parameter itself); of the other parameters, the opcode bytes apart, `ZPX_REMASK` affects
`A`, `N`, `Z` and `ABR` and not the count. -/
def Obligations.TimingIsAnOutputOnly : Prop :=
  (∀ (k : Nat) (s : State) (n : Nat) (p : Fin 2),
    mapOutcome (fun t => { t with cycleCount := 0, cfg := { t.cfg with pageCrossExtra := 0 } })
        (run k { s with cycleCount := n, cfg := { s.cfg with pageCrossExtra := p } }) =
      mapOutcome (fun t => { t with cycleCount := 0, cfg := { t.cfg with pageCrossExtra := 0 } }) (run k s)) ∧
  (∀ (k : Nat) (s : State) (b : Bool),
    mapOutcome (fun t => { t with a := 0, flagN := false, flagZ := false, abr := 0, cfg := { t.cfg with zpxRemask := false } })
        (run k { s with cfg := { s.cfg with zpxRemask := b } }) =
      mapOutcome (fun t => { t with a := 0, flagN := false, flagZ := false, abr := 0, cfg := { t.cfg with zpxRemask := false } })
        (run k s))

/-- Running through empty memory never stops: with 0x00 unknown, each step consumes one byte, wraps at the top of memory
and reports; no state but `PC` and `CycleCount` changes (spec/70_reset_and_hazards.md section 3, an inference of the
spec). -/
def Obligations.EmptyMemoryRunsForever : Prop :=
  ∀ (k : Nat) (s : State), (0x00 : Byte) ∉ s.cfg.opcodes → (∀ addr, s.mem.byteAt addr = 0x00) →
    run (k + 1) s = .next { s with pc := s.pc + BitVec.ofNat 16 (k + 1), cycleCount := s.cycleCount + (k + 1),
                                   report := some (.unknownOpcode 0x00 (s.pc + BitVec.ofNat 16 k)) }

/-! ## The host -/

/-- What each write of a single register or flag by the host does: its own field holds the value, "and reads back what it
wrote", and no other field changes (spec/10_state.md rules R17 and R24; that the host may write every field is decision
D20, that such a write leaves the report is the model's choice, log 16). The execute command is the step. -/
def Obligations.HostWriteChangesItsOwnFieldOnly : Prop :=
  ∀ s : State,
    (∀ v, hostDo s (.setPc v) = .next { s with pc := v }) ∧
    (∀ v, hostDo s (.setSp v) = .next { s with sp := v }) ∧
    (∀ v, hostDo s (.setA v) = .next { s with a := v }) ∧
    (∀ v, hostDo s (.setX v) = .next { s with x := v }) ∧
    (∀ v, hostDo s (.setY v) = .next { s with y := v }) ∧
    (∀ v, hostDo s (.setFlag .c v) = .next { s with flagC := v }) ∧
    (∀ v, hostDo s (.setFlag .z v) = .next { s with flagZ := v }) ∧
    (∀ v, hostDo s (.setFlag .i v) = .next { s with flagI := v }) ∧
    (∀ v, hostDo s (.setFlag .d v) = .next { s with flagD := v }) ∧
    (∀ v, hostDo s (.setFlag .b v) = .next { s with flagB := v }) ∧
    (∀ v, hostDo s (.setFlag .o v) = .next { s with flagO := v }) ∧
    (∀ v, hostDo s (.setFlag .n v) = .next { s with flagN := v }) ∧
    (∀ v, hostDo s (.setAbr v) = .next { s with abr := v }) ∧
    (∀ v, hostDo s (.setCycleCount v) = .next { s with cycleCount := v }) ∧
    hostDo s .executeOne = step s

/-- "The fault is terminal: no further `executeOne` is defined on the faulted machine; only `reset` brings it back"
(spec/60_exceptions.md rule R97, decision D7): a session that a fault has ended stays so under every command but reset,
and after a reset, whatever came before it, a fault included, it goes on as from `resetCommand` of its first state
(spec/70_reset_and_hazards.md rule R113: reset "can be issued at any step boundary and after a `Fault`; it always
succeeds"). That the other commands leave a faulted machine as it is, and that reset keeps the parameters, are the
model's choices (logs 22, 11). -/
def Obligations.OnlyResetBringsAFaultedMachineBack : Prop :=
  (∀ (s : State) (cs ds : List HostCommand) (f : Fault), hostSession s cs = .fault f → .reset ∉ ds →
    hostSession s (cs ++ ds) = .fault f) ∧
  (∀ (s : State) (cs ds : List HostCommand),
    hostSession s (cs ++ .reset :: ds) = hostSession (resetCommand s) ds)
end

