-- ==== Sys2Proof/Laws/Bytes.lean ====
section
/-!
SUPPORT. The byte order of words: `wordOf` puts the low byte first, and `loByte`, `hiByte` take it apart
(spec/20_memory.md rule R42).
-/

namespace Sys2Proof

/-- A word is `lo8 + 256 * hi8`, exactly (R64). -/
theorem wordOf_toNat (lo hi : Byte) : (wordOf lo hi).toNat = lo.toNat + 256 * hi.toNat := by
  have hlo := lo.isLt
  have hhi := hi.isLt
  have hshift : ((hi.setWidth 16 <<< 8 : Word)).toNat = 2 ^ 8 * hi.toNat := by
    simp only [BitVec.toNat_shiftLeft, BitVec.toNat_setWidth, Nat.shiftLeft_eq]
    omega
  have hor : lo.toNat ||| 2 ^ 8 * hi.toNat = 2 ^ 8 * hi.toNat + lo.toNat := by
    rw [Nat.or_comm, Nat.two_pow_add_eq_or_of_lt hlo]
  simp only [wordOf, BitVec.toNat_or, hshift, BitVec.toNat_setWidth, Nat.mod_eq_of_lt (show lo.toNat < 2 ^ 16 by omega), hor]
  omega

theorem loByte_toNat (w : Word) : (loByte w).toNat = w.toNat % 256 := by
  simp [loByte, BitVec.toNat_setWidth]

theorem hiByte_toNat (w : Word) : (hiByte w).toNat = w.toNat / 256 := by
  have hw := w.isLt
  simp only [hiByte, BitVec.toNat_setWidth, BitVec.toNat_ushiftRight, Nat.shiftRight_eq_div_pow]
  omega

@[simp] theorem loByte_wordOf (lo hi : Byte) : loByte (wordOf lo hi) = lo := by
  have hlo := lo.isLt
  apply BitVec.eq_of_toNat_eq
  rw [loByte_toNat, wordOf_toNat]
  omega

@[simp] theorem hiByte_wordOf (lo hi : Byte) : hiByte (wordOf lo hi) = hi := by
  have hlo := lo.isLt
  apply BitVec.eq_of_toNat_eq
  rw [hiByte_toNat, wordOf_toNat]
  omega

@[simp] theorem wordOf_lo_hi (w : Word) : wordOf (loByte w) (hiByte w) = w := by
  apply BitVec.eq_of_toNat_eq
  rw [wordOf_toNat, loByte_toNat, hiByte_toNat]
  omega

/-- The bytes of a word are the ones that compose it. -/
theorem wordOf_eq_iff (lo hi : Byte) (w : Word) : wordOf lo hi = w ↔ lo = loByte w ∧ hi = hiByte w := by
  constructor
  · rintro rfl
    simp
  · rintro ⟨rfl, rfl⟩
    simp

/-- A word with the value `lo + 256 * hi` is the word of the two bytes. -/
theorem wordOf_eq_of_toNat {lo hi : Byte} {w : Word} (h : lo.toNat + 256 * hi.toNat = w.toNat) : wordOf lo hi = w := by
  apply BitVec.eq_of_toNat_eq
  rw [wordOf_toNat, h]

end Sys2Proof
end

