-- ==== Sys2Proof/Laws/Decode.lean ====
section
/-!
SUPPORT. What the decoder does, once: the form of each opcode byte, and the three ways a decode can end.
-/

namespace Sys2Proof

/-- The byte that a form's opcode must be; `UNKNOWN` has none of its own. -/
theorem Config.form_eq_unknown_iff (cfg : Config) (op : Byte) : cfg.form op = .unknown ↔ op ∉ cfg.opcodes := by
  unfold Config.form Config.opcodes
  split_ifs <;> simp_all

theorem Config.form_unknown {cfg : Config} {op : Byte} (h : op ∉ cfg.opcodes) : cfg.form op = .unknown :=
  (cfg.form_eq_unknown_iff op).2 h

@[simp] theorem Config.form_opLdaImm (cfg : Config) : cfg.form cfg.opLdaImm = .ldaImm := by simp [Config.form]

/-- With pairwise distinct opcode bytes, each takes its own arm (R88). -/
theorem Config.form_of_wf {cfg : Config} (h : cfg.wf) :
    cfg.form cfg.opLdaZp = .ldaZp ∧ cfg.form cfg.opLdaZpx = .ldaZpx ∧ cfg.form cfg.opLdaAbs = .ldaAbs ∧
    cfg.form cfg.opLdaAbsx = .ldaAbsx ∧ cfg.form cfg.opLdaAbsy = .ldaAbsy ∧ cfg.form cfg.opJmpAbs = .jmpAbs ∧
    cfg.form cfg.opJmpInd = .jmpInd := by
  simp only [Config.wf, Config.opcodes, List.nodup_cons, List.mem_cons, List.not_mem_nil, not_or] at h
  obtain ⟨⟨h01, h02, h03, h04, h05, h06, h07, -⟩, ⟨h12, h13, h14, h15, h16, h17, -⟩, ⟨h23, h24, h25, h26, h27, -⟩,
    ⟨h34, h35, h36, h37, -⟩, ⟨h45, h46, h47, -⟩, ⟨h56, h57, -⟩, ⟨h67, -⟩, -⟩ := h
  refine ⟨?_, ?_, ?_, ?_, ?_, ?_, ?_⟩ <;>
    simp [Config.form, Ne.symm h01, Ne.symm h02, Ne.symm h03, Ne.symm h04, Ne.symm h05, Ne.symm h06, Ne.symm h07,
      Ne.symm h12, Ne.symm h13, Ne.symm h14, Ne.symm h15, Ne.symm h16, Ne.symm h17, Ne.symm h23, Ne.symm h24, Ne.symm h25,
      Ne.symm h26, Ne.symm h27, Ne.symm h34, Ne.symm h35, Ne.symm h36, Ne.symm h37, Ne.symm h45, Ne.symm h46, Ne.symm h47,
      Ne.symm h56, Ne.symm h57, Ne.symm h67]

@[simp] theorem assemble_form (f : Form) (op b1 b2 : Byte) : (assemble f op b1 b2).form = f := by cases f <;> rfl

/-- A byte past the operand bytes of a form is not looked at. -/
theorem assemble_of_one_operand {f : Form} (h : f.format.operandBytes = 1) (op b1 b2 b2' : Byte) :
    assemble f op b1 b2 = assemble f op b1 b2' := by
  cases f <;> first | rfl | simp [Form.format, Format.operandBytes] at h

theorem assemble_of_no_operand {f : Form} (h : f.format.operandBytes = 0) (op b1 b2 b1' b2' : Byte) :
    assemble f op b1 b2 = assemble f op b1' b2' := by
  cases f <;> first | rfl | simp [Form.format, Format.operandBytes] at h

theorem Form.operandBytes_le (f : Form) : f.format.operandBytes ≤ 2 := by cases f <;> decide

/-- Three bytes always decode, to the instruction that `assemble` makes of them; the bytes left over are those past the
form's length (R56, R60). -/
theorem decode_three (cfg : Config) (op b1 b2 : Byte) (rest : List Byte) :
    decode cfg (op :: b1 :: b2 :: rest) =
      .ok (assemble (cfg.form op) op b1 b2, (b1 :: b2 :: rest).drop (cfg.form op).format.operandBytes) := by
  generalize hf : cfg.form op = f
  cases f <;> simp [decode, hf, Form.format, Format.operandBytes, assemble]

/-- What an answer of the decoder looks like: the opcode byte, exactly the operand bytes of its form, and the rest. -/
theorem decode_ok_cases {cfg : Config} {bs rest : List Byte} {i : Instr} (h : decode cfg bs = .ok (i, rest)) :
    ∃ op operands b1 b2, bs = op :: (operands ++ rest) ∧ operands = [b1, b2].take (cfg.form op).format.operandBytes ∧
      i = assemble (cfg.form op) op b1 b2 := by
  cases bs with
  | nil => simp [decode] at h
  | cons op tail =>
    simp only [decode] at h
    split at h
    · rename_i h0
      simp only [Except.ok.injEq, Prod.mk.injEq] at h
      exact ⟨op, [], 0, 0, by simp [h.2], by simp [h0], h.1.symm⟩
    · rename_i b1 tail' h1
      simp only [Except.ok.injEq, Prod.mk.injEq] at h
      exact ⟨op, [b1], b1, 0, by simp [h.2], by simp [h1], h.1.symm⟩
    · rename_i b1 b2 tail' h2
      simp only [Except.ok.injEq, Prod.mk.injEq] at h
      exact ⟨op, [b1, b2], b1, b2, by simp [h.2], by simp [h2], h.1.symm⟩
    · simp at h

end Sys2Proof
end

