-- ==== Sys2Proof/Laws/State.lean ====
section
/-!
SUPPORT. One lemma for each field under each update of the state, so that no proof unfolds a record update; and the
equality of two updates in either order where a proof wants one spelling.
-/

namespace Sys2Proof.Machine.State

/-! ## `setPc` -/

@[simp] theorem setPc_pc (s : State) (v : Word) : (s.setPc v).pc = v := rfl
@[simp] theorem setPc_sp (s : State) (v : Word) : (s.setPc v).sp = s.sp := rfl
@[simp] theorem setPc_a (s : State) (v : Word) : (s.setPc v).a = s.a := rfl
@[simp] theorem setPc_x (s : State) (v : Word) : (s.setPc v).x = s.x := rfl
@[simp] theorem setPc_y (s : State) (v : Word) : (s.setPc v).y = s.y := rfl
@[simp] theorem setPc_flagC (s : State) (v : Word) : (s.setPc v).flagC = s.flagC := rfl
@[simp] theorem setPc_flagZ (s : State) (v : Word) : (s.setPc v).flagZ = s.flagZ := rfl
@[simp] theorem setPc_flagI (s : State) (v : Word) : (s.setPc v).flagI = s.flagI := rfl
@[simp] theorem setPc_flagD (s : State) (v : Word) : (s.setPc v).flagD = s.flagD := rfl
@[simp] theorem setPc_flagB (s : State) (v : Word) : (s.setPc v).flagB = s.flagB := rfl
@[simp] theorem setPc_flagO (s : State) (v : Word) : (s.setPc v).flagO = s.flagO := rfl
@[simp] theorem setPc_flagN (s : State) (v : Word) : (s.setPc v).flagN = s.flagN := rfl
@[simp] theorem setPc_abr (s : State) (v : Word) : (s.setPc v).abr = s.abr := rfl
@[simp] theorem setPc_cycleCount (s : State) (v : Word) : (s.setPc v).cycleCount = s.cycleCount := rfl
@[simp] theorem setPc_mem (s : State) (v : Word) : (s.setPc v).mem = s.mem := rfl
@[simp] theorem setPc_report (s : State) (v : Word) : (s.setPc v).report = s.report := rfl
@[simp] theorem setPc_cfg (s : State) (v : Word) : (s.setPc v).cfg = s.cfg := rfl

/-! ## `setA` -/

@[simp] theorem setA_pc (s : State) (v : Byte) : (s.setA v).pc = s.pc := rfl
@[simp] theorem setA_sp (s : State) (v : Byte) : (s.setA v).sp = s.sp := rfl
@[simp] theorem setA_a (s : State) (v : Byte) : (s.setA v).a = v := rfl
@[simp] theorem setA_x (s : State) (v : Byte) : (s.setA v).x = s.x := rfl
@[simp] theorem setA_y (s : State) (v : Byte) : (s.setA v).y = s.y := rfl
@[simp] theorem setA_flagC (s : State) (v : Byte) : (s.setA v).flagC = s.flagC := rfl
@[simp] theorem setA_flagZ (s : State) (v : Byte) : (s.setA v).flagZ = s.flagZ := rfl
@[simp] theorem setA_flagI (s : State) (v : Byte) : (s.setA v).flagI = s.flagI := rfl
@[simp] theorem setA_flagD (s : State) (v : Byte) : (s.setA v).flagD = s.flagD := rfl
@[simp] theorem setA_flagB (s : State) (v : Byte) : (s.setA v).flagB = s.flagB := rfl
@[simp] theorem setA_flagO (s : State) (v : Byte) : (s.setA v).flagO = s.flagO := rfl
@[simp] theorem setA_flagN (s : State) (v : Byte) : (s.setA v).flagN = s.flagN := rfl
@[simp] theorem setA_abr (s : State) (v : Byte) : (s.setA v).abr = s.abr := rfl
@[simp] theorem setA_cycleCount (s : State) (v : Byte) : (s.setA v).cycleCount = s.cycleCount := rfl
@[simp] theorem setA_mem (s : State) (v : Byte) : (s.setA v).mem = s.mem := rfl
@[simp] theorem setA_report (s : State) (v : Byte) : (s.setA v).report = s.report := rfl
@[simp] theorem setA_cfg (s : State) (v : Byte) : (s.setA v).cfg = s.cfg := rfl

/-! ## `setAbr` -/

@[simp] theorem setAbr_pc (s : State) (v : Nat) : (s.setAbr v).pc = s.pc := rfl
@[simp] theorem setAbr_sp (s : State) (v : Nat) : (s.setAbr v).sp = s.sp := rfl
@[simp] theorem setAbr_a (s : State) (v : Nat) : (s.setAbr v).a = s.a := rfl
@[simp] theorem setAbr_x (s : State) (v : Nat) : (s.setAbr v).x = s.x := rfl
@[simp] theorem setAbr_y (s : State) (v : Nat) : (s.setAbr v).y = s.y := rfl
@[simp] theorem setAbr_flagC (s : State) (v : Nat) : (s.setAbr v).flagC = s.flagC := rfl
@[simp] theorem setAbr_flagZ (s : State) (v : Nat) : (s.setAbr v).flagZ = s.flagZ := rfl
@[simp] theorem setAbr_flagI (s : State) (v : Nat) : (s.setAbr v).flagI = s.flagI := rfl
@[simp] theorem setAbr_flagD (s : State) (v : Nat) : (s.setAbr v).flagD = s.flagD := rfl
@[simp] theorem setAbr_flagB (s : State) (v : Nat) : (s.setAbr v).flagB = s.flagB := rfl
@[simp] theorem setAbr_flagO (s : State) (v : Nat) : (s.setAbr v).flagO = s.flagO := rfl
@[simp] theorem setAbr_flagN (s : State) (v : Nat) : (s.setAbr v).flagN = s.flagN := rfl
@[simp] theorem setAbr_abr (s : State) (v : Nat) : (s.setAbr v).abr = v := rfl
@[simp] theorem setAbr_cycleCount (s : State) (v : Nat) : (s.setAbr v).cycleCount = s.cycleCount := rfl
@[simp] theorem setAbr_mem (s : State) (v : Nat) : (s.setAbr v).mem = s.mem := rfl
@[simp] theorem setAbr_report (s : State) (v : Nat) : (s.setAbr v).report = s.report := rfl
@[simp] theorem setAbr_cfg (s : State) (v : Nat) : (s.setAbr v).cfg = s.cfg := rfl

/-! ## `setMem` -/

@[simp] theorem setMem_pc (s : State) (m : Memory) : (s.setMem m).pc = s.pc := rfl
@[simp] theorem setMem_sp (s : State) (m : Memory) : (s.setMem m).sp = s.sp := rfl
@[simp] theorem setMem_a (s : State) (m : Memory) : (s.setMem m).a = s.a := rfl
@[simp] theorem setMem_x (s : State) (m : Memory) : (s.setMem m).x = s.x := rfl
@[simp] theorem setMem_y (s : State) (m : Memory) : (s.setMem m).y = s.y := rfl
@[simp] theorem setMem_flagC (s : State) (m : Memory) : (s.setMem m).flagC = s.flagC := rfl
@[simp] theorem setMem_flagZ (s : State) (m : Memory) : (s.setMem m).flagZ = s.flagZ := rfl
@[simp] theorem setMem_flagI (s : State) (m : Memory) : (s.setMem m).flagI = s.flagI := rfl
@[simp] theorem setMem_flagD (s : State) (m : Memory) : (s.setMem m).flagD = s.flagD := rfl
@[simp] theorem setMem_flagB (s : State) (m : Memory) : (s.setMem m).flagB = s.flagB := rfl
@[simp] theorem setMem_flagO (s : State) (m : Memory) : (s.setMem m).flagO = s.flagO := rfl
@[simp] theorem setMem_flagN (s : State) (m : Memory) : (s.setMem m).flagN = s.flagN := rfl
@[simp] theorem setMem_abr (s : State) (m : Memory) : (s.setMem m).abr = s.abr := rfl
@[simp] theorem setMem_cycleCount (s : State) (m : Memory) : (s.setMem m).cycleCount = s.cycleCount := rfl
@[simp] theorem setMem_mem (s : State) (m : Memory) : (s.setMem m).mem = m := rfl
@[simp] theorem setMem_report (s : State) (m : Memory) : (s.setMem m).report = s.report := rfl
@[simp] theorem setMem_cfg (s : State) (m : Memory) : (s.setMem m).cfg = s.cfg := rfl

/-! ## `setReport` -/

@[simp] theorem setReport_pc (s : State) (r : Option Report) : (s.setReport r).pc = s.pc := rfl
@[simp] theorem setReport_sp (s : State) (r : Option Report) : (s.setReport r).sp = s.sp := rfl
@[simp] theorem setReport_a (s : State) (r : Option Report) : (s.setReport r).a = s.a := rfl
@[simp] theorem setReport_x (s : State) (r : Option Report) : (s.setReport r).x = s.x := rfl
@[simp] theorem setReport_y (s : State) (r : Option Report) : (s.setReport r).y = s.y := rfl
@[simp] theorem setReport_flagC (s : State) (r : Option Report) : (s.setReport r).flagC = s.flagC := rfl
@[simp] theorem setReport_flagZ (s : State) (r : Option Report) : (s.setReport r).flagZ = s.flagZ := rfl
@[simp] theorem setReport_flagI (s : State) (r : Option Report) : (s.setReport r).flagI = s.flagI := rfl
@[simp] theorem setReport_flagD (s : State) (r : Option Report) : (s.setReport r).flagD = s.flagD := rfl
@[simp] theorem setReport_flagB (s : State) (r : Option Report) : (s.setReport r).flagB = s.flagB := rfl
@[simp] theorem setReport_flagO (s : State) (r : Option Report) : (s.setReport r).flagO = s.flagO := rfl
@[simp] theorem setReport_flagN (s : State) (r : Option Report) : (s.setReport r).flagN = s.flagN := rfl
@[simp] theorem setReport_abr (s : State) (r : Option Report) : (s.setReport r).abr = s.abr := rfl
@[simp] theorem setReport_cycleCount (s : State) (r : Option Report) : (s.setReport r).cycleCount = s.cycleCount := rfl
@[simp] theorem setReport_mem (s : State) (r : Option Report) : (s.setReport r).mem = s.mem := rfl
@[simp] theorem setReport_report (s : State) (r : Option Report) : (s.setReport r).report = r := rfl
@[simp] theorem setReport_cfg (s : State) (r : Option Report) : (s.setReport r).cfg = s.cfg := rfl

/-! ## `cycle` -/

@[simp] theorem cycle_pc (s : State) (n : Nat) : (s.cycle n).pc = s.pc := rfl
@[simp] theorem cycle_sp (s : State) (n : Nat) : (s.cycle n).sp = s.sp := rfl
@[simp] theorem cycle_a (s : State) (n : Nat) : (s.cycle n).a = s.a := rfl
@[simp] theorem cycle_x (s : State) (n : Nat) : (s.cycle n).x = s.x := rfl
@[simp] theorem cycle_y (s : State) (n : Nat) : (s.cycle n).y = s.y := rfl
@[simp] theorem cycle_flagC (s : State) (n : Nat) : (s.cycle n).flagC = s.flagC := rfl
@[simp] theorem cycle_flagZ (s : State) (n : Nat) : (s.cycle n).flagZ = s.flagZ := rfl
@[simp] theorem cycle_flagI (s : State) (n : Nat) : (s.cycle n).flagI = s.flagI := rfl
@[simp] theorem cycle_flagD (s : State) (n : Nat) : (s.cycle n).flagD = s.flagD := rfl
@[simp] theorem cycle_flagB (s : State) (n : Nat) : (s.cycle n).flagB = s.flagB := rfl
@[simp] theorem cycle_flagO (s : State) (n : Nat) : (s.cycle n).flagO = s.flagO := rfl
@[simp] theorem cycle_flagN (s : State) (n : Nat) : (s.cycle n).flagN = s.flagN := rfl
@[simp] theorem cycle_abr (s : State) (n : Nat) : (s.cycle n).abr = s.abr := rfl
@[simp] theorem cycle_cycleCount (s : State) (n : Nat) : (s.cycle n).cycleCount = s.cycleCount + n := rfl
@[simp] theorem cycle_mem (s : State) (n : Nat) : (s.cycle n).mem = s.mem := rfl
@[simp] theorem cycle_report (s : State) (n : Nat) : (s.cycle n).report = s.report := rfl
@[simp] theorem cycle_cfg (s : State) (n : Nat) : (s.cycle n).cfg = s.cfg := rfl

/-! ## `setNZ` -/

@[simp] theorem setNZ_pc (s : State) (v : Byte) : (s.setNZ v).pc = s.pc := rfl
@[simp] theorem setNZ_sp (s : State) (v : Byte) : (s.setNZ v).sp = s.sp := rfl
@[simp] theorem setNZ_a (s : State) (v : Byte) : (s.setNZ v).a = s.a := rfl
@[simp] theorem setNZ_x (s : State) (v : Byte) : (s.setNZ v).x = s.x := rfl
@[simp] theorem setNZ_y (s : State) (v : Byte) : (s.setNZ v).y = s.y := rfl
@[simp] theorem setNZ_flagC (s : State) (v : Byte) : (s.setNZ v).flagC = s.flagC := rfl
@[simp] theorem setNZ_flagZ (s : State) (v : Byte) : (s.setNZ v).flagZ = zeroOf v := rfl
@[simp] theorem setNZ_flagI (s : State) (v : Byte) : (s.setNZ v).flagI = s.flagI := rfl
@[simp] theorem setNZ_flagD (s : State) (v : Byte) : (s.setNZ v).flagD = s.flagD := rfl
@[simp] theorem setNZ_flagB (s : State) (v : Byte) : (s.setNZ v).flagB = s.flagB := rfl
@[simp] theorem setNZ_flagO (s : State) (v : Byte) : (s.setNZ v).flagO = s.flagO := rfl
@[simp] theorem setNZ_flagN (s : State) (v : Byte) : (s.setNZ v).flagN = negativeOf v := rfl
@[simp] theorem setNZ_abr (s : State) (v : Byte) : (s.setNZ v).abr = s.abr := rfl
@[simp] theorem setNZ_cycleCount (s : State) (v : Byte) : (s.setNZ v).cycleCount = s.cycleCount := rfl
@[simp] theorem setNZ_mem (s : State) (v : Byte) : (s.setNZ v).mem = s.mem := rfl
@[simp] theorem setNZ_report (s : State) (v : Byte) : (s.setNZ v).report = s.report := rfl
@[simp] theorem setNZ_cfg (s : State) (v : Byte) : (s.setNZ v).cfg = s.cfg := rfl

/-! ## `fetched` -/

@[simp] theorem fetched_pc (s : State) (n : Nat) : (s.fetched n).pc = s.pc + BitVec.ofNat 16 n := rfl
@[simp] theorem fetched_sp (s : State) (n : Nat) : (s.fetched n).sp = s.sp := rfl
@[simp] theorem fetched_a (s : State) (n : Nat) : (s.fetched n).a = s.a := rfl
@[simp] theorem fetched_x (s : State) (n : Nat) : (s.fetched n).x = s.x := rfl
@[simp] theorem fetched_y (s : State) (n : Nat) : (s.fetched n).y = s.y := rfl
@[simp] theorem fetched_flagC (s : State) (n : Nat) : (s.fetched n).flagC = s.flagC := rfl
@[simp] theorem fetched_flagZ (s : State) (n : Nat) : (s.fetched n).flagZ = s.flagZ := rfl
@[simp] theorem fetched_flagI (s : State) (n : Nat) : (s.fetched n).flagI = s.flagI := rfl
@[simp] theorem fetched_flagD (s : State) (n : Nat) : (s.fetched n).flagD = s.flagD := rfl
@[simp] theorem fetched_flagB (s : State) (n : Nat) : (s.fetched n).flagB = s.flagB := rfl
@[simp] theorem fetched_flagO (s : State) (n : Nat) : (s.fetched n).flagO = s.flagO := rfl
@[simp] theorem fetched_flagN (s : State) (n : Nat) : (s.fetched n).flagN = s.flagN := rfl
@[simp] theorem fetched_abr (s : State) (n : Nat) : (s.fetched n).abr = s.abr := rfl
@[simp] theorem fetched_cycleCount (s : State) (n : Nat) : (s.fetched n).cycleCount = s.cycleCount + n := rfl
@[simp] theorem fetched_mem (s : State) (n : Nat) : (s.fetched n).mem = s.mem := rfl
@[simp] theorem fetched_report (s : State) (n : Nat) : (s.fetched n).report = none := rfl
@[simp] theorem fetched_cfg (s : State) (n : Nat) : (s.fetched n).cfg = s.cfg := rfl

/-! ## `loadA` -/

@[simp] theorem loadA_pc (s : State) (v : Byte) : (loadA v s).pc = s.pc := rfl
@[simp] theorem loadA_sp (s : State) (v : Byte) : (loadA v s).sp = s.sp := rfl
@[simp] theorem loadA_a (s : State) (v : Byte) : (loadA v s).a = v := rfl
@[simp] theorem loadA_x (s : State) (v : Byte) : (loadA v s).x = s.x := rfl
@[simp] theorem loadA_y (s : State) (v : Byte) : (loadA v s).y = s.y := rfl
@[simp] theorem loadA_flagC (s : State) (v : Byte) : (loadA v s).flagC = s.flagC := rfl
@[simp] theorem loadA_flagZ (s : State) (v : Byte) : (loadA v s).flagZ = zeroOf v := rfl
@[simp] theorem loadA_flagI (s : State) (v : Byte) : (loadA v s).flagI = s.flagI := rfl
@[simp] theorem loadA_flagD (s : State) (v : Byte) : (loadA v s).flagD = s.flagD := rfl
@[simp] theorem loadA_flagB (s : State) (v : Byte) : (loadA v s).flagB = s.flagB := rfl
@[simp] theorem loadA_flagO (s : State) (v : Byte) : (loadA v s).flagO = s.flagO := rfl
@[simp] theorem loadA_flagN (s : State) (v : Byte) : (loadA v s).flagN = negativeOf v := rfl
@[simp] theorem loadA_abr (s : State) (v : Byte) : (loadA v s).abr = s.abr := rfl
@[simp] theorem loadA_cycleCount (s : State) (v : Byte) : (loadA v s).cycleCount = s.cycleCount := rfl
@[simp] theorem loadA_mem (s : State) (v : Byte) : (loadA v s).mem = s.mem := rfl
@[simp] theorem loadA_report (s : State) (v : Byte) : (loadA v s).report = s.report := rfl
@[simp] theorem loadA_cfg (s : State) (v : Byte) : (loadA v s).cfg = s.cfg := rfl

end Sys2Proof.Machine.State
end

