-- ==== Sys2Proof/Laws/Ops.lean ====
section
/-!
SUPPORT. One lemma for each shared operation, saying all it can do: the provers cite these instead of unfolding.
-/

namespace Sys2Proof.Machine

/-! ## Access primitives -/

theorem memRead_of_lt {addr : Nat} {s : State} (h : addr < memSize) : memRead addr s = .ok (s.mem.byteAt addr) :=
  if_pos h

theorem memRead_of_le {addr : Nat} {s : State} (h : memSize ≤ addr) : memRead addr s = .error (.addressOutOfRange addr s) :=
  if_neg (Nat.not_lt.2 h)

theorem memWrite_of_lt {addr : Nat} {v : Byte} {s : State} (h : addr < memSize) :
    memWrite addr v s = .ok (s.setMem (s.mem.store addr v)) :=
  if_pos h

theorem memWrite_of_le {addr : Nat} {v : Byte} {s : State} (h : memSize ≤ addr) :
    memWrite addr v s = .error (.addressOutOfRange addr s) :=
  if_neg (Nat.not_lt.2 h)

theorem readByte_of_lt {addr : Nat} {s : State} (h : addr < memSize) :
    readByte addr s = .ok (s.mem.byteAt addr, s.cycle 1) := by
  rw [readByte, memRead_of_lt h]

theorem readByte_of_le {addr : Nat} {s : State} (h : memSize ≤ addr) :
    readByte addr s = .error (.addressOutOfRange addr s) := by
  rw [readByte, memRead_of_le h]

/-- Both reads in range: the word, and two cycles. -/
theorem readWord_of_lt {addr : Nat} {s : State} (h : addr + 1 < memSize) :
    readWord addr s = .ok (wordOf (s.mem.byteAt addr) (s.mem.byteAt (addr + 1)), (s.cycle 1).cycle 1) := by
  rw [readWord, readByte_of_lt (by omega)]
  simp only [readByte_of_lt h, State.cycle_mem]

/-- The first read in range and the second not: the first is done and charged. -/
theorem readWord_at_top {addr : Nat} {s : State} (h : addr + 1 = memSize) :
    readWord addr s = .error (.addressOutOfRange (addr + 1) (s.cycle 1)) := by
  rw [readWord, readByte_of_lt (by omega)]
  simp only [readByte_of_le (Nat.le_of_eq h.symm)]

/-! ## Fetching -/

@[simp] theorem fetchByte_fst (s : State) : (fetchByte s).1 = s.mem.byteAt s.pc.toNat := rfl

@[simp] theorem fetchByte_snd (s : State) : (fetchByte s).2 = (s.setPc (s.pc + 1)).cycle 1 := rfl

theorem fetchWord_fst (s : State) :
    (fetchWord s).1 = wordOf (s.mem.byteAt s.pc.toNat) (s.mem.byteAt (s.pc + 1).toNat) := rfl

@[simp] theorem fetchWord_snd (s : State) : (fetchWord s).2 = (s.setPc (s.pc + 2)).cycle 2 := by
  simp [fetchWord, State.setPc, State.cycle, BitVec.add_assoc]

theorem streamByte_zero (s : State) : streamByte s 0 = s.mem.byteAt s.pc.toNat := by simp [streamByte]

theorem streamByte_one (s : State) : streamByte s 1 = s.mem.byteAt (s.pc + 1).toNat := rfl

theorem streamByte_two (s : State) : streamByte s 2 = s.mem.byteAt (s.pc + 2).toNat := rfl

/-- The instruction at `PC` is assembled from the three bytes there; rewrite with it, since `simp` would first turn
`(s.pc + 1).toNat` into a remainder. -/
theorem instrAtPc_eq (s : State) :
    instrAtPc s = assemble (s.cfg.form (s.mem.byteAt s.pc.toNat)) (s.mem.byteAt s.pc.toNat)
      (s.mem.byteAt (s.pc + 1).toNat) (s.mem.byteAt (s.pc + 2).toNat) := by
  rw [instrAtPc, streamByte_zero, streamByte_one, streamByte_two]

/-- The form of the instruction at `PC` is decided by the byte there. -/
@[simp] theorem instrAtPc_form (s : State) : (instrAtPc s).form = s.cfg.form (s.mem.byteAt s.pc.toNat) := by
  rw [instrAtPc_eq, assemble_form]

/-! ## Addresses -/

@[simp] theorem zeroPageAddr_eq (zp8 : Byte) : zeroPageAddr zp8 = zp8.toNat := by
  have h : zp8 &&& 0xFF = zp8 := BitVec.and_allOnes
  rw [zeroPageAddr, h]

theorem zeroPageXAddr_eq (cfg : Config) (zp8 x : Byte) :
    zeroPageXAddr cfg zp8 x = if cfg.zpxRemask then (zp8.toNat + x.toNat) % 256 else zp8.toNat + x.toNat := by
  rw [zeroPageXAddr, zeroPageAddr_eq, show (0xFF : Nat) = 2 ^ 8 - 1 from rfl, Nat.and_two_pow_sub_one_eq_mod]

theorem zeroPageAddr_lt (zp8 : Byte) : zeroPageAddr zp8 < memSize := by
  have h := zp8.isLt
  rw [zeroPageAddr_eq, memSize]
  omega

theorem absoluteAddr_lt (word : Word) : absoluteAddr word < memSize := word.isLt

theorem zeroPageXAddr_le (cfg : Config) (zp8 x : Byte) : zeroPageXAddr cfg zp8 x ≤ 0x1FE := by
  have h1 := zp8.isLt
  have h2 := x.isLt
  rw [zeroPageXAddr_eq]
  split_ifs <;> omega

theorem page_eq (a : Nat) : page a = a / 256 := by simp [page, Nat.shiftRight_eq_div_pow]

theorem pageCrossCharge_eq (cfg : Config) (word : Word) (r : Byte) :
    pageCrossCharge cfg word r =
      if (word.toNat + r.toNat) / 256 = word.toNat / 256 then 0 else cfg.pageCrossExtra.val := by
  simp [pageCrossCharge, page_eq, indexedAddr]

theorem pageCrossCharge_le (cfg : Config) (word : Word) (r : Byte) : pageCrossCharge cfg word r ≤ 1 := by
  have h := cfg.pageCrossExtra.isLt
  rw [pageCrossCharge_eq]
  split_ifs <;> omega

/-! ## What the families share -/

/-- A load through an `ABR` in range: the whole next state. -/
theorem loadFromAbr_of_lt {s : State} (h : s.abr < memSize) :
    loadFromAbr s = .next (loadA (s.mem.byteAt s.abr) (s.cycle 1)) := by
  rw [loadFromAbr, readByte_of_lt h]

/-- A load through an `ABR` out of range: the fault, with that address and with nothing of the load done. -/
theorem loadFromAbr_of_le {s : State} (h : memSize ≤ s.abr) : loadFromAbr s = .fault (.addressOutOfRange s.abr s) := by
  rw [loadFromAbr, readByte_of_le h]

/-- The resolver of Indirect: the pointer's target in `ABR`, or the fault of the second read. -/
theorem resolveIndirect_eq (pointer : Word) (s : State) :
    resolveIndirect pointer s =
      if pointer = 0xFFFF then .error (.addressOutOfRange 0x10000 (s.cycle 1))
      else .ok (((s.cycle 1).cycle 1).setAbr
        (wordOf (s.mem.byteAt pointer.toNat) (s.mem.byteAt (pointer.toNat + 1))).toNat) := by
  unfold resolveIndirect
  split_ifs with h
  · subst h
    rw [readWord_at_top (by rfl)]
    rfl
  · have hlt : pointer.toNat + 1 < memSize := by
      have hne : pointer.toNat ≠ 65535 := fun hc => h (BitVec.eq_of_toNat_eq hc)
      have hp := pointer.isLt
      simp only [memSize]
      omega
    rw [readWord_of_lt hlt]

/-! ## Runs -/

@[simp] theorem run_zero (s : State) : run 0 s = .next s := rfl

theorem run_succ (k : Nat) (s : State) :
    run (k + 1) s = match step s with
      | .next t => run k t
      | .fault f => .fault f
      | .refused r => .refused r := by
  simp only [run, Host.Core.run, Sys2Proof.core]
  cases step s <;> rfl

/-- A run that completes: its first step completes and the rest completes from there. -/
theorem run_succ_next {k : Nat} {s t : State} (h : run (k + 1) s = .next t) :
    ∃ u, step s = .next u ∧ run k u = .next t := by
  rw [run_succ] at h
  cases hs : step s with
  | next u => exact ⟨u, rfl, by simpa [hs] using h⟩
  | fault f => simp [hs] at h
  | refused r => simp [hs] at h

/-- The same run seen from its end: the last step is made from where the steps before it led. -/
theorem run_succ_last (k : Nat) (s : State) :
    run (k + 1) s = match run k s with
      | .next t => step t
      | .fault f => .fault f
      | .refused r => .refused r := by
  induction k generalizing s with
  | zero =>
    rw [run_succ]
    cases h : step s <;> simp only [run_zero, h]
  | succ k ih =>
    rw [run_succ, run_succ k]
    cases step s with
    | next u => exact ih u
    | fault f => rfl
    | refused r => rfl

/-- A relation that holds of a state and itself and is kept by every step holds over every run. -/
theorem run_next_induction {P : Nat → State → State → Prop} (h0 : ∀ s, P 0 s s)
    (hstep : ∀ k s u t, step s = .next u → run k u = .next t → P k u t → P (k + 1) s t) :
    ∀ k s t, run k s = .next t → P k s t := by
  intro k
  induction k with
  | zero => intro s t h; cases h; exact h0 s
  | succ k ih =>
    intro s t h
    obtain ⟨u, hu, ht⟩ := run_succ_next h
    exact hstep k s u t hu ht (ih u t ht)

end Sys2Proof.Machine
end

