-- ==== Sys2Proof/Laws/Interface.lean ====
section
/-!
SUPPORT. What a command of the host can do: the parameters it keeps, what it answers on a faulted machine, and how a
session is put together.
-/

namespace Sys2Proof.Machine

/-! ## Reset -/

/-- Reset reads nothing of a state but its parameters, which are no register (R113, R114). -/
theorem resetCommand_eq (s : State) : resetCommand s = { State.reset with cfg := s.cfg } := rfl

/-- Two states of one machine reset to one state. -/
theorem resetCommand_congr {s t : State} (h : s.cfg = t.cfg) : resetCommand s = resetCommand t := by
  rw [resetCommand_eq, resetCommand_eq, h]

/-! ## One command on a machine that runs or has faulted -/

theorem hostAct_next (s : State) (c : HostCommand) : hostAct (.next s) c = hostDo s c := rfl

/-- Reset brings a faulted machine back (R97). -/
theorem hostAct_fault_reset (addr : Nat) (r : State) :
    hostAct (.fault (.addressOutOfRange addr r)) .reset = .next (resetCommand r) := rfl

/-- No other command does (R97). -/
theorem hostAct_fault {c : HostCommand} (hc : c ≠ .reset) (f : Fault) : hostAct (.fault f) c = .fault f := by
  cases f
  cases c <;> first | rfl | exact absurd rfl hc

/-! ## Sessions -/

@[simp] theorem hostSession_nil (s : State) : hostSession s [] = .next s := rfl

/-- The commands of a session act on what the commands before them left. -/
theorem hostSession_append (s : State) (cs ds : List HostCommand) :
    hostSession s (cs ++ ds) = ds.foldl hostAct (hostSession s cs) :=
  List.foldl_append

end Sys2Proof.Machine
end

