-- ==== Sys2Proof/Laws/Memory.lean ====
section
/-!
SUPPORT. The memory component: what a store does to a read, and that every memory operation keeps the canonical form.
-/

namespace Sys2Proof.Machine.Memory

@[simp] theorem byteAt_nil (addr : Nat) : byteAt [] addr = unlistedByte := rfl

theorem wf_nil : wf [] = true := rfl

/-- What the canonical form says of the first cell and of the rest. -/
theorem wfFrom_cons (lo a : Nat) (v : Byte) (m : Memory) :
    wfFrom lo ((a, v) :: m) = true ↔ lo ≤ a ∧ a < memSize ∧ v ≠ unlistedByte ∧ wfFrom (a + 1) m = true := by
  simp [wfFrom, and_assoc]

theorem wfFrom_mono {lo lo' : Nat} {m : Memory} (h : lo' ≤ lo) (hm : wfFrom lo m = true) : wfFrom lo' m = true := by
  cases m with
  | nil => rfl
  | cons c m =>
    obtain ⟨a, v⟩ := c
    rw [wfFrom_cons] at hm ⊢
    exact ⟨h.trans hm.1, hm.2⟩

/-- Below the first address of a canonical memory every cell is unlisted. -/
theorem byteAt_below {lo addr : Nat} {m : Memory} (hm : wfFrom lo m = true) (h : addr < lo) :
    m.byteAt addr = unlistedByte := by
  induction m generalizing lo with
  | nil => rfl
  | cons c m ih =>
    obtain ⟨a, v⟩ := c
    obtain ⟨hlo, -, -, hm⟩ := (wfFrom_cons ..).1 hm
    rw [byteAt, if_neg (by omega)]
    exact ih hm (by omega)

/-- A canonical memory has no cell outside the memory span (R31). -/
theorem byteAt_outside {lo addr : Nat} {m : Memory} (hm : wfFrom lo m = true) (h : memSize ≤ addr) :
    m.byteAt addr = unlistedByte := by
  induction m generalizing lo with
  | nil => rfl
  | cons c m ih =>
    obtain ⟨a, v⟩ := c
    obtain ⟨-, ha, -, hm⟩ := (wfFrom_cons ..).1 hm
    rw [byteAt, if_neg (by omega)]
    exact ih hm

theorem wfFrom_cell {lo addr : Nat} {v : Byte} {m : Memory} (hm : wfFrom (addr + 1) m = true) (hlo : lo ≤ addr)
    (h : addr < memSize) : wfFrom lo (Memory.cons addr v m) = true := by
  unfold Memory.cons
  split_ifs with hv
  · exact wfFrom_mono (by omega) hm
  · exact (wfFrom_cons ..).2 ⟨hlo, h, hv, hm⟩

theorem byteAt_cell {addr : Nat} {v : Byte} {m : Memory} (hm : wfFrom (addr + 1) m = true) (other : Nat) :
    (Memory.cons addr v m).byteAt other = if other = addr then v else m.byteAt other := by
  unfold Memory.cons
  split_ifs with hv h h
  · rw [h, byteAt_below hm (Nat.lt_succ_self _), hv]
  · rfl
  · rw [byteAt, if_pos h.symm]
  · rw [byteAt, if_neg (Ne.symm h)]

/-- A store keeps the canonical form, from any address on. -/
theorem wfFrom_store {lo addr : Nat} {v : Byte} {m : Memory} (hm : wfFrom lo m = true) (hlo : lo ≤ addr)
    (h : addr < memSize) : wfFrom lo (m.store addr v) = true := by
  induction m generalizing lo with
  | nil => exact wfFrom_cell rfl hlo h
  | cons c m ih =>
    obtain ⟨a, b⟩ := c
    obtain ⟨hloa, ha, hb, hm⟩ := (wfFrom_cons ..).1 hm
    rw [store]
    split_ifs with h1 h2
    · exact (wfFrom_cons ..).2 ⟨hloa, ha, hb, ih hm (by omega)⟩
    · subst h2
      exact wfFrom_cell hm hlo h
    · exact wfFrom_cell ((wfFrom_cons ..).2 ⟨by omega, ha, hb, hm⟩) hlo h

/-- **A store keeps the canonical form.** -/
theorem wf_store {addr : Nat} {v : Byte} {m : Memory} (hm : m.wf = true) (h : addr < memSize) :
    (m.store addr v).wf = true :=
  wfFrom_store hm (Nat.zero_le _) h

theorem byteAt_storeFrom {lo addr : Nat} {v : Byte} {m : Memory} (hm : wfFrom lo m = true) (other : Nat) :
    (m.store addr v).byteAt other = if other = addr then v else m.byteAt other := by
  induction m generalizing lo with
  | nil => exact byteAt_cell rfl other
  | cons c m ih =>
    obtain ⟨a, b⟩ := c
    obtain ⟨-, ha, hb, hm⟩ := (wfFrom_cons ..).1 hm
    rw [store]
    rcases Nat.lt_trichotomy a addr with h | h | h
    · rw [if_pos h, byteAt, byteAt, ih hm]
      by_cases h' : a = other
      · rw [if_pos h', if_pos h', if_neg (by omega)]
      · rw [if_neg h', if_neg h']
    · subst h
      rw [if_neg (Nat.lt_irrefl a), if_pos rfl, byteAt_cell hm, byteAt]
      by_cases h' : other = a
      · rw [if_pos h', if_pos h']
      · rw [if_neg h', if_neg h', if_neg (Ne.symm h')]
    · rw [if_neg (by omega), if_neg (by omega)]
      exact byteAt_cell ((wfFrom_cons ..).2 ⟨by omega, ha, hb, hm⟩) other

/-- **A read after a store**: the stored byte at its address, and the old byte everywhere else (R34). -/
theorem byteAt_store {m : Memory} (hm : m.wf = true) (addr : Nat) (v : Byte) (other : Nat) :
    (m.store addr v).byteAt other = if other = addr then v else m.byteAt other :=
  byteAt_storeFrom hm other

/-- The host's placing of an instruction keeps the canonical form. -/
theorem wf_storeBytes {m : Memory} (hm : m.wf = true) (a : Word) (bytes : List Byte) :
    (m.storeBytes a bytes).wf = true := by
  induction bytes generalizing m a with
  | nil => exact hm
  | cons b bytes ih => exact ih (wf_store hm (by simpa [memSize] using a.isLt)) (a + 1)

end Sys2Proof.Machine.Memory

namespace Sys2Proof.Machine

/-- `memWrite` keeps the canonical form. -/
theorem memWrite_wf {addr : Nat} {v : Byte} {s t : State} (hs : s.mem.wf = true) (h : memWrite addr v s = .ok t) :
    t.mem.wf = true := by
  unfold memWrite at h
  split_ifs at h with ha
  cases h
  exact Memory.wf_store hs ha

/-- `init()` and reset leave the canonical form of the all-zero memory. -/
theorem memInit_wf (s : State) : (memInit s).mem.wf = true := rfl

theorem resetCommand_wf (s : State) : (resetCommand s).mem.wf = true := rfl

theorem reset_wf : State.reset.mem.wf = true := rfl

theorem withFetchWord_wf {s : State} (hs : s.mem.wf = true) (nbits w : Nat) : (s.withFetchWord nbits w).mem.wf = true :=
  Memory.wf_storeBytes hs _ _

end Sys2Proof.Machine
end

