-- ==== Sys2Proof/Laws/PerInstr.lean ====
section
/-!
SUPPORT. Families of facts about every instruction as syntax, one lemma per constructor.
-/

namespace Sys2Proof.Laws.EncodedLength

/-- The encoding of an instruction has the length of its form, whatever the opcode bytes are (R53, R57). -/
def Statement (i : Instr) : Prop := ∀ cfg : Config, (encode cfg i).length = i.form.length

theorem ldaImm (imm8 : Byte) : Statement (.ldaImm imm8) := fun _ => rfl
theorem ldaZp (zp8 : Byte) : Statement (.ldaZp zp8) := fun _ => rfl
theorem ldaZpx (zp8 : Byte) : Statement (.ldaZpx zp8) := fun _ => rfl
theorem ldaAbs (word : Word) : Statement (.ldaAbs word) := fun _ => rfl
theorem ldaAbsx (word : Word) : Statement (.ldaAbsx word) := fun _ => rfl
theorem ldaAbsy (word : Word) : Statement (.ldaAbsy word) := fun _ => rfl
theorem jmpAbs (word : Word) : Statement (.jmpAbs word) := fun _ => rfl
theorem jmpInd (word : Word) : Statement (.jmpInd word) := fun _ => rfl
theorem unknown (op : Byte) : Statement (.unknown op) := fun _ => rfl

end Sys2Proof.Laws.EncodedLength
end

