-- ==== Sys2Proof/Tests/Slice0.lean ====
section
/-!
SUPPORT. Small tests, each a named theorem. The expected values are the spec's: the vectors of spec/95_test_vectors.md
(named S, P, M, L, J, K, T there), or words written out from the encodings of spec/30_encoding.md. Then, for each
statement with hypotheses, a witness that they can be met, at the boundary values of its clauses.
-/

namespace Sys2Proof.Tests

open Sys2Proof.Machine

/-! ## Helpers -/

/-- `s` with `bytes` in memory from `a` on. -/
def load (s : State) (a : Word) (bytes : List Byte) : State := s.setMem (s.mem.storeBytes a bytes)

/-- The start of the `LDA` vectors: `PC = 0x0600`, `CC = 100`, `A = 0x55`, `N = Z = C = O = 1`, the instruction there. -/
def start (bytes : List Byte) : State :=
  load { State.reset with pc := 0x0600, cycleCount := 100, a := 0x55, flagN := true, flagZ := true, flagC := true, flagO := true }
    0x0600 bytes

/-- `s` with the two behaviour parameters set. -/
def param (s : State) (remask : Bool) (extra : Fin 2) : State :=
  { s with cfg := { s.cfg with zpxRemask := remask, pageCrossExtra := extra } }

/-- What the vectors show of a state, in this order: `A`, `N`, `Z`, `PC`, `CC`, `ABR`. -/
structure Shown where
  a : Byte
  n : Bool
  z : Bool
  pc : Word
  cc : Nat
  abr : Nat
  deriving DecidableEq, Repr

/-- What the vectors show of `s`. -/
def shown (s : State) : Shown := ⟨s.a, s.flagN, s.flagZ, s.pc, s.cycleCount, s.abr⟩

/-- The address of a fault and what the vectors show of the record. -/
def shownFault : Fault → Nat × Shown
  | .addressOutOfRange addr r => (addr, shown r)

/-- A step's next state, as shown. -/
def afterStep (s : State) : Option Shown := (nextOf (step s)).map shown

/-- A step's fault, as shown. -/
def atFault (s : State) : Option (Nat × Shown) := (faultOf (step s)).map shownFault

/-! ## Decode: one word of every row, from spec/30_encoding.md section 3 -/

theorem test_decode_ldaImm : decode Config.default [0b10101001, 0x7F] = .ok (.ldaImm 0x7F, []) := by decide
theorem test_decode_ldaZp : decode Config.default [0b10100101, 0xFF, 0x01] = .ok (.ldaZp 0xFF, [0x01]) := by decide
theorem test_decode_ldaZpx : decode Config.default [0b10110101, 0x42] = .ok (.ldaZpx 0x42, []) := by decide
theorem test_decode_ldaAbs : decode Config.default [0b10101101, 0x01, 0x06] = .ok (.ldaAbs 0x0601, []) := by decide
theorem test_decode_ldaAbsx : decode Config.default [0b10111101, 0x34, 0x12] = .ok (.ldaAbsx 0x1234, []) := by decide
theorem test_decode_ldaAbsy : decode Config.default [0b10111001, 0x00, 0x40] = .ok (.ldaAbsy 0x4000, []) := by decide
theorem test_decode_jmpAbs : decode Config.default [0b01001100, 0x00, 0x01] = .ok (.jmpAbs 0x0100, []) := by decide
theorem test_decode_jmpInd : decode Config.default [0b01101100, 0xFF, 0x02] = .ok (.jmpInd 0x02FF, []) := by decide
theorem test_decode_unknown : decode Config.default [0x00, 0xA9] = .ok (.unknown 0x00, [0xA9]) := by decide

/-- The neighbours and one-bit variants of the implemented bytes, K1 to K13. -/
theorem test_decode_neighbours :
    ∀ op ∈ ([0x00, 0xFF, 0xEA, 0xA1, 0xB1, 0xA8, 0xAA, 0xA4, 0xA6, 0xB4, 0xB6, 0xAC, 0xAE, 0xBC, 0xBE, 0xB8, 0xBA,
      0x4B, 0x4D, 0x6B, 0x6D, 0xAB, 0x89, 0xE9, 0x29] : List Byte), Config.default.form op = .unknown := by decide

theorem test_decode_rejects_no_byte : decode Config.default [] = .error .noOpcode := by decide
theorem test_decode_rejects_truncated : decode Config.default [0xAD, 0x00] = .error (.truncated 0xAD) := by decide
theorem test_encode_word_order : encode Config.default (.jmpInd 0x1234) = [0x6C, 0x34, 0x12] := by decide

/-- Other opcode bytes give another decoding of the same bytes (D1). -/
theorem test_decode_other_parameters :
    decode { Config.default with opLdaImm := 0x4C, opJmpAbs := 0xA9 } [0x4C, 0x01, 0x02] = .ok (.ldaImm 0x01, [0x02]) := by decide

theorem test_table_word_short : decodeTableWord 8 0xBD = some (.ldaAbsx 0x0000) := by decide
theorem test_table_word_long : decodeTableWord 24 0x3000AD = some (.ldaAbs 0x3000) := by decide

theorem test_withFetchWord_runs_it :
    afterStep (State.reset.withFetchWord 16 0x80A9) = some ⟨0x80, true, false, 0xFFFE, 2, 0⟩ := by decide

/-! ## Well-formedness: what each check refuses -/

/-- An implemented byte is no `UNKNOWN` instruction. -/
theorem test_wf_refuses_implemented_byte : ∀ op ∈ Config.default.opcodes, WellFormed Config.default (.unknown op) = false := by
  decide

theorem test_wf_accepts_unknown_byte : WellFormed Config.default (.unknown 0xEA) = true := by decide

/-- Two rows on one byte are no configuration of this hardware (R7). -/
theorem test_config_wf_refuses_shared_byte : ¬ ({ Config.default with opJmpInd := 0xA9 } : Config).wf := by decide

theorem test_config_wf_default : Config.default.wf := by decide

/-- The canonical form refuses an unsorted list, a repeated address, a listed 0, and a cell outside the span. -/
theorem test_memory_wf_refuses :
    Memory.wf [(2, 1), (1, 1)] = false ∧ Memory.wf [(1, 1), (1, 2)] = false ∧ Memory.wf [(1, 0)] = false ∧
    Memory.wf [(65536, 1)] = false := by decide

theorem test_memory_store_zero_removes : Memory.store [(1, 7), (3, 9)] 1 0 = [(3, 9)] := by decide

/-! ## Access primitives -/

/-- P2 -/
theorem test_fetchByte_wraps :
    let r := fetchByte { State.reset with pc := 0xFFFF, cycleCount := 7, mem := [(0xFFFF, 0xCD)] }
    (r.1, r.2.pc, r.2.cycleCount) = (0xCD, 0x0000, 8) := by decide

/-- P4 -/
theorem test_fetchWord_wraps :
    let r := fetchWord { State.reset with pc := 0xFFFF, mem := [(0x0000, 0xAB), (0xFFFF, 0xCD)] }
    (r.1, r.2.pc, r.2.cycleCount) = (0xABCD, 0x0001, 2) := by decide

/-- P6 -/
theorem test_readWord_crosses_the_page :
    readWord 0x02FF { State.reset with mem := [(0x0200, 0x99), (0x02FF, 0x34), (0x0300, 0x12)] } =
      .ok (0x1234, { State.reset with cycleCount := 2, mem := [(0x0200, 0x99), (0x02FF, 0x34), (0x0300, 0x12)] }) := by rfl

/-- P7 -/
theorem test_readWord_at_the_top_faults :
    readWord 0xFFFF { State.reset with mem := [(0xFFFF, 0x34)] } =
      .error (.addressOutOfRange 0x10000 { State.reset with cycleCount := 1, mem := [(0xFFFF, 0x34)] }) := by rfl

/-! ## `LDA` -/

/-- L1 -/
theorem test_ldaImm_zero : afterStep (start [0xA9, 0x00]) = some ⟨0x00, false, true, 0x0602, 102, 0⟩ := by decide

/-- L21 -/
theorem test_ldaImm_wraps :
    afterStep (load { State.reset with pc := 0xFFFF } 0xFFFF [0xA9, 0x80]) = some ⟨0x80, true, false, 0x0001, 2, 0⟩ := by decide

/-- S3, the source's own test -/
theorem test_ldaZp_reset :
    afterStep (load (load State.reset 0xFFFC [0xA5, 0x08]) 0x0008 [0x3E]) = some ⟨0x3E, false, false, 0xFFFE, 3, 0x0008⟩ := by
  decide

/-- L7 -/
theorem test_ldaZp_is_an_address : afterStep (start [0xA5, 0x01]) = some ⟨0x00, false, true, 0x0602, 103, 0x0001⟩ := by decide

/-- L9 -/
theorem test_ldaZpx_leaves_the_zero_page :
    afterStep { load (load (start [0xB5, 0x80]) 0x017F [0x11]) 0x007F [0x22] with x := 0xFF } =
      some ⟨0x11, false, false, 0x0602, 104, 0x017F⟩ := by decide

/-- L10 -/
theorem test_ldaZpx_remasked :
    afterStep (param { load (load (start [0xB5, 0x80]) 0x017F [0x11]) 0x007F [0x22] with x := 0xFF } true 0) =
      some ⟨0x22, false, false, 0x0602, 104, 0x007F⟩ := by decide

/-- L12 -/
theorem test_ldaAbs_reads_its_own_operand :
    afterStep (start [0xAD, 0x01, 0x06]) = some ⟨0x01, false, false, 0x0603, 104, 0x0601⟩ := by decide

/-- L22 -/
theorem test_ldaAbs_wraps :
    afterStep (load (load { State.reset with pc := 0xFFFE } 0xFFFE [0xAD, 0x10, 0x20]) 0x2010 [0x07]) =
      some ⟨0x07, false, false, 0x0001, 4, 0x2010⟩ := by decide

/-- L15 -/
theorem test_ldaAbsx_page_cross :
    afterStep (param { load (start [0xBD, 0xFF, 0x30]) 0x3100 [0x80] with x := 0x01 } false 1) =
      some ⟨0x80, true, false, 0x0603, 105, 0x3100⟩ := by decide

/-- L17 -/
theorem test_ldaAbsx_faults :
    atFault { start [0xBD, 0xFF, 0xFF] with x := 0x01 } = some (0x10000, ⟨0x55, true, true, 0x0603, 103, 0x10000⟩) := by decide

/-- L20 -/
theorem test_ldaAbsy_ignores_x :
    afterStep { load (start [0xB9, 0x00, 0x30]) 0x3000 [0x09] with x := 0xFF } =
      some ⟨0x09, false, false, 0x0603, 104, 0x3000⟩ := by decide

/-- L19 -/
theorem test_ldaAbsy_fault_charges_the_cross :
    atFault (param { start [0xB9, 0x01, 0xFF] with y := 0xFF } false 1) =
      some (0x10000, ⟨0x55, true, true, 0x0603, 104, 0x10000⟩) := by decide

/-! ## `JMP` and `UNKNOWN` -/

/-- S4, the source's own test -/
theorem test_jmpAbs_reset :
    afterStep (load State.reset 0xFFFC [0x4C, 0x00, 0x01]) = some ⟨0x00, false, false, 0x0100, 3, 0⟩ := by decide

/-- J10 -/
theorem test_jmpAbs_wraps :
    afterStep (load { State.reset with pc := 0xFFFE } 0xFFFE [0x4C, 0x00, 0x06]) = some ⟨0x00, false, false, 0x0600, 3, 0⟩ := by
  decide

/-- J6 -/
theorem test_jmpInd_no_page_quirk :
    afterStep (load (load (load { State.reset with pc := 0x0600 } 0x0600 [0x6C, 0xFF, 0x02]) 0x02FF [0x34, 0x12]) 0x0200 [0x99]) =
      some ⟨0x00, false, false, 0x1234, 5, 0x1234⟩ := by decide

/-- J8 -/
theorem test_jmpInd_faults :
    atFault (load (load { State.reset with pc := 0x0600 } 0x0600 [0x6C, 0xFF, 0xFF]) 0xFFFF [0x34]) =
      some (0x10000, ⟨0x00, false, false, 0x0603, 4, 0⟩) := by decide

/-- S6: every other field keeps its value. -/
theorem test_unknown_reports_and_keeps_all :
    let s : State := load { State.reset with pc := 0x0600, a := 0x5A, x := 0x11, y := 0x22, sp := 0x33, flagC := true,
                                             flagZ := true, flagI := true, flagD := true, flagB := true, flagO := true,
                                             flagN := true, abr := 0x0044, cycleCount := 10 } 0x0600 [0xEA]
    nextOf (step s) = some { s with pc := 0x0601, cycleCount := 11, report := some (.unknownOpcode 0xEA 0x0600) } := by decide

/-- K14 -/
theorem test_unknown_wraps :
    (nextOf (step (load { State.reset with pc := 0xFFFF } 0xFFFF [0xEA]))).map (fun t => (t.pc, t.report)) =
      some (0x0000, some (.unknownOpcode 0xEA 0xFFFF)) := by decide

/-! ## Reset and the host -/

/-- T1 -/
theorem test_reset_clears_all :
    resetCommand { start [] with pc := 0x1234, a := 0xFF, abr := 0x100FE, cycleCount := 999, mem := [(0x0200, 0x77)] } =
      State.reset := by decide

/-- T2: after reset memory is zero and 0x00 is unknown. -/
theorem test_first_step_of_empty_memory :
    (nextOf (step State.reset)).map (fun t => (t.pc, t.cycleCount, t.report)) =
      some (0xFFFD, 1, some (.unknownOpcode 0x00 0xFFFC)) := by decide

/-- T4: a program loaded before reset is gone. -/
theorem test_reset_destroys_the_program :
    (nextOf (hostSession State.reset [.write 0xFFFC 0xA9, .reset, .executeOne])).map (fun t => t.report) =
      some (some (.unknownOpcode 0x00 0xFFFC)) := by decide

/-- R97 and R113: `LDA` Absolute,X at 0xFFFF with `X = 1` faults, a host write and a second step leave the fault, reset
brings the machine back. -/
theorem test_reset_brings_a_faulted_machine_back :
    faultOf (hostSession { start [0xBD, 0xFF, 0xFF] with x := 1 } [.executeOne, .setPc 0, .executeOne]) ≠ none ∧
    nextOf (hostSession { start [0xBD, 0xFF, 0xFF] with x := 1 } [.executeOne, .setPc 0, .executeOne, .reset]) =
      some State.reset := by decide

/-! ## Witnesses: the hypotheses of the statements can be met -/

theorem witness_EncodedInstructionDecodesToItself :
    Config.default.wf ∧ WellFormed Config.default (.ldaAbsy 0xFFFF) = true ∧ WellFormed Config.default (.unknown 0xFF) = true := by
  decide

theorem witness_DecodedBytesAreTheEncoding :
    decode Config.default [0x6C, 0xFE, 0xFF, 0x01] = .ok (.jmpInd 0xFFFE, [0x01]) := by decide

/-- A form for each clause: the first byte of each length, and an unknown one at the top of memory. -/
theorem witness_OpcodeByteAloneDecidesLength :
    decode Config.default [0xB5, 0x00] = .ok (.ldaZpx 0x00, []) ∧ decode Config.default [0x4C, 0x00, 0x00] = .ok (.jmpAbs 0, []) ∧
    decode Config.default [0x85] = .ok (.unknown 0x85, []) ∧ (0xEA : Byte) ∉ State.reset.cfg.opcodes ∧
    OpcodeAtPc (load State.reset 0xFFFC [0xEA]) 0xEA ∧ ∃ t, step (load State.reset 0xFFFC [0xEA]) = .next t :=
  ⟨by decide, by decide, by decide, by decide, by decide, _, rfl⟩

/-- The operand word nearest to the one that is shut out. -/
theorem witness_NoEncodingStopsTheMachine :
    (load State.reset 0xFFFC [0x6C, 0xFE, 0xFF]).x = 0 ∧ (load State.reset 0xFFFC [0x6C, 0xFE, 0xFF]).y = 0 ∧
    ¬ OperandWordAtPc (load State.reset 0xFFFC [0x6C, 0xFE, 0xFF]) 0xFFFF := by decide

theorem witness_ResetIsIdempotent : (start [0xEA]).cfg = State.reset.cfg := by decide

theorem witness_FirstStepRunsTheBytesAtTheResetVector :
    decode Config.default [Memory.byteAt [(0xFFFC, 0xA9), (0xFFFD, 0x80)] 0xFFFC, Memory.byteAt [(0xFFFC, 0xA9), (0xFFFD, 0x80)] 0xFFFD,
      Memory.byteAt [(0xFFFC, 0xA9), (0xFFFD, 0x80)] 0xFFFE] = .ok (.ldaImm 0x80, [0x00]) ∧
    decodeTableWord 24 0x01004C = some (.jmpAbs 0x0100) := by decide

theorem witness_StepRunsTheDecodedInstruction :
    let s := start [0xBD, 0xFF, 0x30]
    decode s.cfg [s.mem.byteAt s.pc.toNat, s.mem.byteAt (s.pc + 1).toNat, s.mem.byteAt (s.pc + 2).toNat] =
      .ok (.ldaAbsx 0x30FF, []) := by decide

/-- The bytes at `PC`, for each form: two bytes across the top of memory, three bytes at 0x0600. -/
theorem witness_LdaEffects :
    (start []).cfg.wf ∧
    OpcodeAtPc (load { State.reset with pc := 0xFFFF } 0xFFFF [0xA9, 0x80]) Config.default.opLdaImm ∧
    OperandByteAtPc (load { State.reset with pc := 0xFFFF } 0xFFFF [0xA9, 0x80]) 0x80 ∧
    OpcodeAtPc (start [0xA5, 0xFF]) Config.default.opLdaZp ∧ OperandByteAtPc (start [0xA5, 0xFF]) 0xFF ∧
    OpcodeAtPc (start [0xB5, 0xFF]) Config.default.opLdaZpx ∧ OperandByteAtPc (start [0xB5, 0xFF]) 0xFF ∧
    OpcodeAtPc (start [0xAD, 0xFF, 0xFF]) Config.default.opLdaAbs ∧ OperandWordAtPc (start [0xAD, 0xFF, 0xFF]) 0xFFFF ∧
    OpcodeAtPc (start [0xBD, 0xFF, 0xFF]) Config.default.opLdaAbsx ∧ OperandWordAtPc (start [0xBD, 0xFF, 0xFF]) 0xFFFF ∧
    OpcodeAtPc (start [0xB9, 0x01, 0xFF]) Config.default.opLdaAbsy ∧ OperandWordAtPc (start [0xB9, 0x01, 0xFF]) 0xFF01 := by
  decide

theorem witness_JmpAndUnknownEffects :
    OpcodeAtPc (start [0x4C, 0xFF, 0xFF]) Config.default.opJmpAbs ∧ OperandWordAtPc (start [0x4C, 0xFF, 0xFF]) 0xFFFF ∧
    OpcodeAtPc (start [0x6C, 0xFF, 0xFF]) Config.default.opJmpInd ∧ OperandWordAtPc (start [0x6C, 0xFF, 0xFF]) 0xFFFF ∧
    (0xFF : Byte) ∉ Config.default.opcodes ∧ OpcodeAtPc (start [0xFF]) 0xFF := by decide

/-- Both sides of the range clause of Absolute,X and Absolute,Y, L17 and L18, and both pointers of J8 and J9. -/
theorem witness_range_clauses :
    (0xFFFF : Word).toNat + (0x00 : Byte).toNat ≤ 0xFFFF ∧ 0xFFFF < (0xFFFF : Word).toNat + (0x01 : Byte).toNat ∧
    (0xFFFE : Word) ≠ 0xFFFF := by decide

/-- The five boundary bytes of the flag table of rule R75, each loaded by an `LDA`. -/
theorem witness_flag_table :
    ([0x00, 0x01, 0x7F, 0x80, 0xFF] : List Byte).map
      (fun v => (nextOf (exec (.ldaImm v) State.reset)).map (fun t => (t.a, t.flagN, t.flagZ))) =
    [some (0x00, false, true), some (0x01, false, false), some (0x7F, false, false), some (0x80, true, false),
      some (0xFF, true, false)] := by decide

/-- A load that completes, a jump that completes, and a load that faults: what the statements about flags, frames,
cycles and `PC` assume. -/
theorem witness_exec_next_and_fault :
    (Instr.ldaAbsx 0xFFFF).isLda = true ∧ (∃ t, exec (.ldaAbsx 0xFFFF) State.reset = .next t) ∧
    (Instr.jmpInd 0xFFFE).isLda = false ∧ (∃ t, exec (.jmpInd 0xFFFE) State.reset = .next t) ∧
    (∃ r, exec (.ldaAbsx 0xFFFF) { State.reset with x := 1 } = .fault (.addressOutOfRange 0x10000 r)) ∧
    (∃ r, exec (.jmpInd 0xFFFF) State.reset = .fault (.addressOutOfRange 0x10000 r)) :=
  ⟨rfl, ⟨_, rfl⟩, rfl, ⟨_, rfl⟩, ⟨_, rfl⟩, ⟨_, rfl⟩⟩

/-- A run of two steps that completes, with its index registers 0. -/
theorem witness_run_next : (∃ t, run 2 State.reset = .next t) ∧ State.reset.x = 0 ∧ State.reset.y = 0 :=
  ⟨⟨_, rfl⟩, rfl, rfl⟩

/-- A run that a fault ends. -/
theorem witness_run_fault :
    ∃ r, run 1 { start [0xBD, 0xFF, 0xFF] with x := 0x01 } = .fault (.addressOutOfRange 0x10000 r) := ⟨_, rfl⟩

theorem witness_forms_that_read_no_index : (Instr.ldaAbsy 0).form ≠ .ldaZpx ∧ (Instr.ldaAbsy 0).form ≠ .ldaAbsx ∧
    (Instr.ldaAbsx 0).form ≠ .ldaAbsy := by decide

theorem witness_ReportNamesTheUnknownByteAndDoesNotStick :
    (∃ t, step (start [0xEA]) = .next t) ∧ (start [0xEA]).mem.byteAt 0x0600 ∉ Config.default.opcodes ∧
    (∃ t, step (start [0xA9]) = .next t) ∧ (start [0xA9]).mem.byteAt 0x0600 ∈ Config.default.opcodes :=
  ⟨⟨_, rfl⟩, by decide, ⟨_, rfl⟩, by decide⟩

theorem witness_RunStaysImplementedWhenItsOpcodesAre :
    0 < 1 ∧ run 0 (start [0xA9]) = .next (start [0xA9]) ∧ ∃ u, step (start [0xA9]) = .next u := ⟨by decide, rfl, _, rfl⟩

/-- The last address in range, in a memory with a cell below it, and the first out of range. -/
theorem witness_MemoryReadAndWrite : (start [0xEA]).mem.wf = true ∧ 65535 < 65536 ∧ 65536 ≤ 65536 := by decide

/-- The highest address of the round trip, and the same word as the operand of an instruction. -/
theorem witness_LittleEndianRoundTrip :
    State.reset.mem.wf = true ∧ (0xFFFE : Word).toNat ≤ 0xFFFE ∧
    memWrite 0xFFFE 0x01 State.reset = .ok { State.reset with mem := [(0xFFFE, 0x01)] } ∧
    memWrite 0xFFFF 0x80 { State.reset with mem := [(0xFFFE, 0x01)] } =
      .ok { State.reset with mem := [(0xFFFE, 0x01), (0xFFFF, 0x80)] } ∧
    ∀ op ∈ [Config.default.opLdaAbs, Config.default.opLdaAbsx, Config.default.opLdaAbsy, Config.default.opJmpAbs,
        Config.default.opJmpInd],
      (start [op, 0x01, 0x80]).cfg.wf ∧ OpcodeAtPc (start [op, 0x01, 0x80]) op ∧
      (start [op, 0x01, 0x80]).mem.byteAt 0x0601 = (0x8001 : Word).extractLsb' 0 8 ∧
      (start [op, 0x01, 0x80]).mem.byteAt 0x0602 = (0x8001 : Word).extractLsb' 8 8 :=
  ⟨by decide, by decide, rfl, rfl, by decide⟩

theorem witness_EngineAccessPrimitives : 65535 < 65536 ∧ 65536 ≤ 65536 ∧ 65534 < 65535 := by decide

theorem witness_NextFetchSeesTheHostWrite :
    (start [0xEA]).mem.wf = true ∧ ∃ t, memWrite 0x0601 0x7F (start [0xEA]) = .ok t := ⟨by decide, _, rfl⟩

theorem witness_CanonicalMemoryIsDeterminedByItsBytes :
    Memory.wf [(0, 1), (65535, 2)] = true ∧ ∀ addr, Memory.byteAt [(0, 1), (65535, 2)] addr = Memory.byteAt [(0, 1), (65535, 2)] addr :=
  ⟨by decide, fun _ => rfl⟩

/-- The two ends of Zero Page,X: M6 and M7. -/
theorem witness_EffectiveAddressRanges :
    (nextOf (exec (.ldaZpx 0xFF) { State.reset with x := 0xFF })).map (fun t => t.abr) = some 0x1FE ∧
    (nextOf (exec (.ldaZpx 0xFF) (param { State.reset with x := 0xFF } true 0))).map (fun t => t.abr) = some 0xFE := by decide

/-- A state other than the one after reset that has the invariant, and a step from it. -/
theorem witness_EveryStepKeepsTheInvariant :
    Inv (load { State.reset with pc := 0x0600, flagN := true, abr := 0x100FE } 0x0600 [0xA5, 0x01]) ∧
    ∃ t, step (load { State.reset with pc := 0x0600, flagN := true, abr := 0x100FE } 0x0600 [0xA5, 0x01]) = .next t :=
  ⟨⟨by decide, by decide, by decide, by decide⟩, _, rfl⟩

theorem witness_HostCommandsKeepMemoryCanonical :
    (start [0xEA]).mem.wf = true ∧ ∃ t, hostDo (start [0xEA]) (.write 0xFFFF 0x00) = .next t := ⟨by decide, _, rfl⟩

/-- A session that `JMP ($FFFF)` ends, and further commands without a reset. -/
theorem witness_OnlyResetBringsAFaultedMachineBack :
    (∃ f, hostSession (start [0x6C, 0xFF, 0xFF]) [.executeOne] = .fault f) ∧
    .reset ∉ [HostCommand.setA 0x00, HostCommand.executeOne] :=
  ⟨⟨_, rfl⟩, by decide⟩

theorem witness_EmptyMemoryRunsForever :
    (0x00 : Byte) ∉ State.reset.cfg.opcodes ∧ ∀ addr, State.reset.mem.byteAt addr = 0x00 := ⟨by decide, fun _ => rfl⟩

theorem witness_distinct_opcode_bytes : Config.default.wf := by decide

end Sys2Proof.Tests
end

section
/-!
The fields that no instruction reads (spec/10_state.md rules R16, R18 to R20). A change of such fields is carried
through every operation of the engine; that an instruction does not write them either follows from the same law, by
"changing" the fields to the values they already have.
-/

namespace Sys2Proof.Machine

/-- A change of the state that the engine carries along: it leaves what the engine reads, and it commutes with the
writes every instruction is made of. It need not commute with `loadA`, which overwrites `A`, `N` and `Z`, so that a
change of these three is one too. -/
structure CarriedThrough (f : State → State) : Prop where
  pc : ∀ s, (f s).pc = s.pc
  x : ∀ s, (f s).x = s.x
  y : ∀ s, (f s).y = s.y
  abr : ∀ s, (f s).abr = s.abr
  mem : ∀ s, (f s).mem = s.mem
  cfg : ∀ s, (f s).cfg = s.cfg
  setPc : ∀ s v, (f s).setPc v = f (s.setPc v)
  setAbr : ∀ s v, (f s).setAbr v = f (s.setAbr v)
  setReport : ∀ s r, (f s).setReport r = f (s.setReport r)
  cycle : ∀ s n, (f s).cycle n = f (s.cycle n)

/-- Two outcomes of a load that differ by the change `f` made before the load of `A`: one byte loaded in both, or one
address at which both fault. -/
def SameLoad (f : State → State) (o o' : Host.Outcome State Fault Refusal) : Prop :=
  (∃ v u, o = .next (loadA v u) ∧ o' = .next (loadA v (f u))) ∨
  (∃ addr u, o = .fault (.addressOutOfRange addr u) ∧ o' = .fault (.addressOutOfRange addr (f u)))

namespace CarriedThrough

section
variable {f : State → State} (hf : CarriedThrough f)
include hf

theorem fetched_comm (s : State) (n : Nat) : (f s).fetched n = f (s.fetched n) := by
  simp only [State.fetched, hf.pc, hf.setReport, hf.setPc, hf.cycle]

theorem resolveZeroPageX_comm (zp8 : Byte) (s : State) :
    resolveZeroPageX zp8 (f s) = f (resolveZeroPageX zp8 s) := by
  simp only [resolveZeroPageX, hf.cfg, hf.x, hf.setAbr, hf.cycle]

theorem resolveAbsoluteIndexed_comm (word : Word) (r : Byte) (s : State) :
    resolveAbsoluteIndexed word r (f s) = f (resolveAbsoluteIndexed word r s) := by
  simp only [resolveAbsoluteIndexed, hf.cfg, hf.setAbr, hf.cycle]

theorem loadFromAbr_same (s : State) : SameLoad f (loadFromAbr s) (loadFromAbr (f s)) := by
  rcases Nat.lt_or_ge s.abr memSize with h | h
  · refine .inl ⟨s.mem.byteAt s.abr, s.cycle 1, loadFromAbr_of_lt h, ?_⟩
    rw [loadFromAbr_of_lt (by rwa [hf.abr]), hf.mem, hf.abr, hf.cycle]
  · refine .inr ⟨s.abr, s, loadFromAbr_of_le h, ?_⟩
    rw [loadFromAbr_of_le (by rwa [hf.abr]), hf.abr]

/-- Every form of `LDA` carries the change up to the load of `A`, or into the record at its fault. -/
theorem exec_lda_same {i : Instr} (hi : i.isLda = true) (s : State) : SameLoad f (exec i s) (exec i (f s)) := by
  cases i with
  | ldaImm imm8 =>
    exact .inl ⟨imm8, s.fetched 2, rfl, by rw [exec, execLdaImm, hf.fetched_comm]⟩
  | ldaZp zp8 =>
    simpa only [exec, execLdaZp, resolveZeroPage, hf.fetched_comm, hf.setAbr] using hf.loadFromAbr_same _
  | ldaZpx zp8 =>
    simpa only [exec, execLdaZpx, hf.fetched_comm, hf.resolveZeroPageX_comm] using hf.loadFromAbr_same _
  | ldaAbs word =>
    simpa only [exec, execLdaAbs, resolveAbsolute, hf.fetched_comm, hf.setAbr] using hf.loadFromAbr_same _
  | ldaAbsx word =>
    simpa only [exec, execLdaAbsx, hf.x, hf.fetched_comm, hf.resolveAbsoluteIndexed_comm] using hf.loadFromAbr_same _
  | ldaAbsy word =>
    simpa only [exec, execLdaAbsy, hf.y, hf.fetched_comm, hf.resolveAbsoluteIndexed_comm] using hf.loadFromAbr_same _
  | jmpAbs word => cases hi
  | jmpInd word => cases hi
  | unknown op => cases hi

theorem execJmpInd_map (word : Word) (s : State) :
    execJmpInd word (f s) = mapOutcome f (execJmpInd word s) := by
  simp only [execJmpInd, resolveIndirect_eq, hf.fetched_comm, hf.mem, hf.cycle, hf.setAbr]
  by_cases hw : word = 0xFFFF
  · simp only [if_pos hw, mapOutcome]
  · simp only [if_neg hw, mapOutcome, hf.abr, hf.setPc]

/-- `JMP` and `UNKNOWN` carry the change into the next state, or into the record at the fault. -/
theorem exec_not_lda_map {i : Instr} (hi : i.isLda = false) (s : State) : exec i (f s) = mapOutcome f (exec i s) := by
  cases i with
  | jmpAbs word => simp only [exec, execJmpAbs, mapOutcome, hf.fetched_comm, hf.setPc]
  | jmpInd word => exact hf.execJmpInd_map word s
  | unknown op => simp only [exec, execUnknown, reportUnknown, mapOutcome, hf.fetched_comm, hf.pc, hf.setReport]
  | ldaImm imm8 => cases hi
  | ldaZp zp8 => cases hi
  | ldaZpx zp8 => cases hi
  | ldaAbs word => cases hi
  | ldaAbsx word => cases hi
  | ldaAbsy word => cases hi

/-- A change that the load of `A` carries too is carried by every instruction. -/
theorem exec_map (hload : ∀ v s, loadA v (f s) = f (loadA v s)) (i : Instr) (s : State) :
    exec i (f s) = mapOutcome f (exec i s) := by
  cases hi : i.isLda with
  | false => exact hf.exec_not_lda_map hi s
  | true =>
    obtain ⟨v, u, h, h'⟩ | ⟨addr, u, h, h'⟩ := hf.exec_lda_same hi s
    · rw [h, h', mapOutcome, hload]
    · rw [h, h', mapOutcome]

end

end CarriedThrough

/-- A carried change that does nothing to the state before does nothing to the state after. -/
theorem next_fixed_of_carried {f : State → State} {i : Instr} {s t : State}
    (hcarried : exec i (f s) = mapOutcome f (exec i s)) (hs : f s = s) (ht : exec i s = .next t) : f t = t := by
  rw [hs, ht, mapOutcome] at hcarried
  exact (Host.Outcome.next.inj hcarried).symm

/-! ## `N` and `Z` -/

/-- Other values in `N` and `Z`. -/
def State.withNZ (n z : Bool) (s : State) : State := { s with flagN := n, flagZ := z }

theorem State.withNZ_carried (n z : Bool) : CarriedThrough (State.withNZ n z) := by
  constructor <;> intros <;> rfl

/-- The load of `A` overwrites `N` and `Z`. -/
theorem loadA_withNZ (v : Byte) (n z : Bool) (s : State) : loadA v (s.withNZ n z) = loadA v s := rfl

/-- An `LDA` that completes leaves `N` and `Z` as functions of the new `A` (R18). -/
theorem exec_lda_flags {i : Instr} {s t : State} (hi : i.isLda = true) (ht : exec i s = .next t) :
    t.flagN = negativeOf t.a ∧ t.flagZ = zeroOf t.a := by
  obtain ⟨v, u, h, -⟩ | ⟨addr, u, h, -⟩ := (State.withNZ_carried false false).exec_lda_same hi s
  · rw [h] at ht
    cases ht
    exact ⟨rfl, rfl⟩
  · rw [h] at ht
    cases ht

theorem exec_not_lda_flags {i : Instr} {s t : State} (hi : i.isLda = false) (ht : exec i s = .next t) :
    t.flagN = s.flagN ∧ t.flagZ = s.flagZ := by
  have hcarried := (State.withNZ_carried s.flagN s.flagZ).exec_not_lda_map hi s
  have hfixed : t.withNZ s.flagN s.flagZ = t := next_fixed_of_carried hcarried rfl ht
  exact ⟨(congrArg State.flagN hfixed).symm, (congrArg State.flagZ hfixed).symm⟩

/-- An `LDA` that completes ends in one state, whatever `N` and `Z` were. -/
theorem exec_lda_withNZ {i : Instr} {s t : State} (hi : i.isLda = true) (n z : Bool) (ht : exec i s = .next t) :
    exec i (s.withNZ n z) = .next t := by
  obtain ⟨v, u, h, h'⟩ | ⟨addr, u, h, -⟩ := (State.withNZ_carried n z).exec_lda_same hi s
  · rw [h', loadA_withNZ, ← h, ht]
  · rw [h] at ht
    cases ht

/-- An `LDA` that faults carries `N` and `Z` into the record. -/
theorem exec_lda_fault_withNZ {i : Instr} {s : State} {e : Fault} (hi : i.isLda = true) (n z : Bool)
    (he : exec i s = .fault e) : exec i (s.withNZ n z) = mapOutcome (State.withNZ n z) (exec i s) := by
  obtain ⟨v, u, h, -⟩ | ⟨addr, u, h, h'⟩ := (State.withNZ_carried n z).exec_lda_same hi s
  · rw [h] at he
    cases he
  · rw [h, h', mapOutcome]

/-- Settles O23: the flags of a load are those of its last operation, and a change of `N` and `Z` is carried through
everything but that operation. -/
theorem negativeAndZeroWrittenByLoadsReadByNone : Obligations.NegativeAndZeroWrittenByLoadsReadByNone := by
  intro i s n z
  refine ⟨fun hi t ht => exec_lda_flags hi ht, fun hi t ht => exec_not_lda_flags hi ht,
    fun hi t ht => exec_lda_withNZ hi n z ht, fun h => ?_⟩
  cases hi : i.isLda with
  | false => exact (State.withNZ_carried n z).exec_not_lda_map hi s
  | true =>
    obtain hfalse | ⟨e, he⟩ := h
    · rw [hi] at hfalse
      cases hfalse
    · exact exec_lda_fault_withNZ hi n z he

/-! ## `SP`, `C`, `I`, `D`, `B`, `O` -/

/-- The fields that no instruction reads or writes (R16, R19, R20). -/
structure InertFields where
  sp : Byte
  c : Bool
  i : Bool
  d : Bool
  b : Bool
  o : Bool

/-- The values of the inert fields in a state. -/
def State.inertFields (s : State) : InertFields := ⟨s.sp, s.flagC, s.flagI, s.flagD, s.flagB, s.flagO⟩

/-- Other values in the inert fields. -/
def State.withInert (p : InertFields) (s : State) : State :=
  { s with sp := p.sp, flagC := p.c, flagI := p.i, flagD := p.d, flagB := p.b, flagO := p.o }

@[simp] theorem State.inertFields_withInert (p : InertFields) (s : State) : (s.withInert p).inertFields = p := rfl

@[simp] theorem State.withInert_inertFields (s : State) : s.withInert s.inertFields = s := rfl

theorem State.inertFields_eq_iff (s t : State) :
    t.inertFields = s.inertFields ↔ t.sp = s.sp ∧ t.flagC = s.flagC ∧ t.flagI = s.flagI ∧ t.flagD = s.flagD ∧
      t.flagB = s.flagB ∧ t.flagO = s.flagO := by
  simp [State.inertFields]

theorem State.withInert_carried (p : InertFields) : CarriedThrough (State.withInert p) := by
  constructor <;> intros <;> rfl

/-- No instruction reads an inert field. -/
theorem exec_withInert (i : Instr) (p : InertFields) (s : State) :
    exec i (s.withInert p) = mapOutcome (State.withInert p) (exec i s) :=
  (State.withInert_carried p).exec_map (fun _ _ => rfl) i s

/-- No instruction writes an inert field. -/
theorem exec_inertFields {i : Instr} {s t : State} (ht : exec i s = .next t) : t.inertFields = s.inertFields := by
  have hfixed : t.withInert s.inertFields = t := next_fixed_of_carried (exec_withInert i s.inertFields s) (by simp) ht
  rw [← hfixed, State.inertFields_withInert]

/-- No run writes an inert field. -/
theorem run_inertFields {k : Nat} {s t : State} (ht : run k s = .next t) : t.inertFields = s.inertFields :=
  run_next_induction (P := fun _ s t => t.inertFields = s.inertFields) (fun _ => rfl)
    (fun _ _ _ _ hstep _ hrest => hrest.trans (exec_inertFields hstep)) k s t ht

/-- Settles O24: other values of the inert fields are carried through every instruction, so that no instruction, and by
induction no run, writes them; reset holds 0 in each. -/
theorem stackPointerAndInertFlagsNeitherReadNorWritten :
    Obligations.StackPointerAndInertFlagsNeitherReadNorWritten := by
  refine ⟨fun i s sp c iFlag d b o => exec_withInert i ⟨sp, c, iFlag, d, b, o⟩ s, fun k s t ht => ?_, ?_⟩
  · exact (State.inertFields_eq_iff s t).1 (run_inertFields ht)
  · exact ⟨rfl, rfl, rfl, rfl, rfl, rfl⟩

/-! ## Writes by the host -/

/-- Settles O50: each host write is the record update of its one field (R17, R24), and the execute command is the step. -/
theorem hostWriteChangesItsOwnFieldOnly : Obligations.HostWriteChangesItsOwnFieldOnly := by
  intro s
  refine ⟨?_, ?_, ?_, ?_, ?_, ?_, ?_, ?_, ?_, ?_, ?_, ?_, ?_, ?_, rfl⟩
  all_goals exact fun _ => rfl

end Sys2Proof.Machine
end

section
/-!
The memory component seen through its interface (spec/20_memory.md rules R33, R34, R42): what the host's write leaves in
the cells, that no instruction writes memory, and that two bytes of memory make one word.
-/

namespace Sys2Proof.Machine

/-! ## Writes -/

/-- A write that succeeds is in range and replaces the memory alone. -/
theorem memWrite_ok_iff {addr : Nat} {v : Byte} {s t : State} :
    memWrite addr v s = .ok t ↔ addr < memSize ∧ s.setMem (s.mem.store addr v) = t := by
  rcases Nat.lt_or_ge addr memSize with h | h
  · simp [memWrite_of_lt h, h]
  · simp [memWrite_of_le h, Nat.not_lt.2 h]

/-- The cells after a write: the written byte at its address, the old byte everywhere else (R34). -/
theorem memWrite_byteAt {addr : Nat} {v : Byte} {s t : State} (hs : s.mem.wf = true) (h : memWrite addr v s = .ok t)
    (other : Nat) : t.mem.byteAt other = if other = addr then v else s.mem.byteAt other := by
  obtain ⟨-, rfl⟩ := memWrite_ok_iff.1 h
  exact Memory.byteAt_store hs addr v other

/-- The host's write command in range (R6, R34). -/
theorem hostDo_write_of_lt {addr : Nat} {v : Byte} {s : State} (h : addr < memSize) :
    hostDo s (.write addr v) = .next (s.setMem (s.mem.store addr v)) := by
  rw [hostDo, memWrite_of_lt h]

/-- The host's write command out of range faults as any access does (R45). -/
theorem hostDo_write_of_le {addr : Nat} {v : Byte} {s : State} (h : memSize ≤ addr) :
    hostDo s (.write addr v) = .fault (.addressOutOfRange addr s) := by
  rw [hostDo, memWrite_of_le h]

/-! ## Instructions leave memory alone -/

theorem loadFromAbr_mem {s t : State} (ht : loadFromAbr s = .next t) : t.mem = s.mem := by
  rcases Nat.lt_or_ge s.abr memSize with h | h
  · rw [loadFromAbr_of_lt h] at ht
    cases ht
    rfl
  · rw [loadFromAbr_of_le h] at ht
    cases ht

theorem resolveIndirect_mem {pointer : Word} {s t : State} (ht : resolveIndirect pointer s = .ok t) : t.mem = s.mem := by
  rw [resolveIndirect_eq] at ht
  split_ifs at ht
  cases ht
  rfl

theorem execJmpInd_mem {word : Word} {s t : State} (ht : execJmpInd word s = .next t) : t.mem = s.mem := by
  rw [execJmpInd] at ht
  cases h : resolveIndirect word (s.fetched 3) with
  | error f => simp [h] at ht
  | ok u =>
    rw [h] at ht
    cases ht
    rw [State.setPc_mem, resolveIndirect_mem h, State.fetched_mem]

/-- No instruction writes memory (R37). -/
theorem exec_mem {i : Instr} {s t : State} (ht : exec i s = .next t) : t.mem = s.mem := by
  cases i with
  | ldaImm imm8 => cases ht; rfl
  | ldaZp zp8 => exact (loadFromAbr_mem ht).trans rfl
  | ldaZpx zp8 => exact (loadFromAbr_mem ht).trans rfl
  | ldaAbs word => exact (loadFromAbr_mem ht).trans rfl
  | ldaAbsx word => exact (loadFromAbr_mem ht).trans rfl
  | ldaAbsy word => exact (loadFromAbr_mem ht).trans rfl
  | jmpAbs word => cases ht; rfl
  | jmpInd word => exact execJmpInd_mem ht
  | unknown op => cases ht; rfl

/-- Settles O38: in range the write is a store, whose read-back law gives every cell; out of range both accesses are the
fault; and no instruction stores. -/
theorem memoryReadAndWrite : Obligations.MemoryReadAndWrite := by
  intro s addr v
  refine ⟨memRead_of_lt, fun h hs => ?_, fun h => ?_, fun t ht => exec_mem ht⟩
  · have hcells := Memory.byteAt_store hs addr v
    refine ⟨s.mem.store addr v, memWrite_of_lt h, hostDo_write_of_lt h, ?_, fun other hne => ?_⟩
    · rw [hcells, if_pos rfl]
    · rw [hcells, if_neg hne]
  · exact ⟨memRead_of_le h, memWrite_of_le h, hostDo_write_of_le h⟩

/-! ## Words in memory -/

theorem extractLsb'_low (w : Word) : w.extractLsb' 0 8 = loByte w := by
  apply BitVec.eq_of_toNat_eq
  rw [loByte_toNat]
  simp

theorem extractLsb'_high (w : Word) : w.extractLsb' 8 8 = hiByte w := rfl

/-- Two writes in a row, low byte first, leave the bytes of the word in the two cells (R42). -/
theorem byteAt_of_word_written {addr : Nat} {w : Word} {s s1 s2 : State} (hs : s.mem.wf = true)
    (hlow : memWrite addr (loByte w) s = .ok s1) (hhigh : memWrite (addr + 1) (hiByte w) s1 = .ok s2) :
    s2.mem.byteAt addr = loByte w ∧ s2.mem.byteAt (addr + 1) = hiByte w := by
  have hcells := memWrite_byteAt (memWrite_wf hs hlow) hhigh
  constructor
  · rw [hcells, if_neg (Nat.ne_of_lt (Nat.lt_succ_self addr)), memWrite_byteAt hs hlow, if_pos rfl]
  · rw [hcells, if_pos rfl]

/-- `readWord` gives the word whose bytes the two cells hold, for two cycles. -/
theorem readWord_of_bytes {addr : Nat} {w : Word} {s : State} (h : addr + 1 < memSize)
    (hlow : s.mem.byteAt addr = loByte w) (hhigh : s.mem.byteAt (addr + 1) = hiByte w) :
    readWord addr s = .ok (w, s.cycle 2) := by
  rw [readWord_of_lt h, hlow, hhigh, wordOf_lo_hi]
  rfl

/-- `fetchWord` gives the word whose bytes the cells at `PC` and `PC +16 1` hold. -/
theorem fetchWord_of_bytes {w : Word} {s : State} (hlow : s.mem.byteAt s.pc.toNat = loByte w)
    (hhigh : s.mem.byteAt (s.pc + 1).toNat = hiByte w) : (fetchWord s).1 = w := by
  rw [fetchWord_fst, hlow, hhigh, wordOf_lo_hi]

/-- The instruction at `PC`, from the form of its opcode byte and the word in its operand bytes. -/
theorem instrAtPc_of_word {op : Byte} {f : Form} {w : Word} {s : State} (hop : OpcodeAtPc s op) (hf : s.cfg.form op = f)
    (hlow : s.mem.byteAt (s.pc + 1).toNat = loByte w) (hhigh : s.mem.byteAt (s.pc + 2).toNat = hiByte w) :
    instrAtPc s = assemble f op (loByte w) (hiByte w) := by
  rw [instrAtPc_eq, hop, hf, hlow, hhigh]

/-- Below the top of memory the next address does not wrap. -/
theorem toNat_add_one_of_le {addr : Word} (h : addr.toNat ≤ 0xFFFE) : (addr + 1).toNat = addr.toNat + 1 := by
  bv_omega

/-- Settles O39: the cells hold the bytes of the word, and `wordOf` puts the bytes of a word together again. -/
theorem littleEndianRoundTrip : Obligations.LittleEndianRoundTrip := by
  constructor
  · intro s s1 s2 addr w hs haddr hlow hhigh
    rw [extractLsb'_low] at hlow
    rw [extractLsb'_high] at hhigh
    obtain ⟨hcellLow, hcellHigh⟩ := byteAt_of_word_written hs hlow hhigh
    refine ⟨readWord_of_bytes (memWrite_ok_iff.1 hhigh).1 hcellLow hcellHigh, fetchWord_of_bytes hcellLow ?_⟩
    rwa [State.setPc_pc, State.setPc_mem, toNat_add_one_of_le haddr]
  · intro s w hcfg hlow hhigh
    rw [extractLsb'_low] at hlow
    rw [extractLsb'_high] at hhigh
    obtain ⟨-, -, hAbs, hAbsx, hAbsy, hJmpAbs, hJmpInd⟩ := Config.form_of_wf hcfg
    have hinstr {op : Byte} {f : Form} (hf : s.cfg.form op = f) (hop : OpcodeAtPc s op) :=
      instrAtPc_of_word hop hf hlow hhigh
    refine ⟨fun hop => ?_, fun hop => ?_, fun hop => ?_, fun hop => ?_, fun hop => ?_⟩
    · rw [hinstr hAbs hop, assemble, wordOf_lo_hi]
    · rw [hinstr hAbsx hop, assemble, wordOf_lo_hi]
    · rw [hinstr hAbsy hop, assemble, wordOf_lo_hi]
    · rw [hinstr hJmpAbs hop, assemble, wordOf_lo_hi]
    · rw [hinstr hJmpInd hop, assemble, wordOf_lo_hi]

end Sys2Proof.Machine
end

section
/-!
Lengths and safety of the encoding (spec/30_encoding.md rules R56, R60): the opcode byte alone decides how many bytes a
decode consumes, and what can end a step is the range of an address, never the encoding.
-/

namespace Sys2Proof

/-! ## Lengths -/

/-- The length of an instruction from its opcode byte: the dispatch tests the opcodes of length 2 first, then those of
length 3, so no premise on the configuration is needed. -/
theorem Config.form_length (cfg : Config) (op : Byte) :
    (cfg.form op).length =
      if op ∈ [cfg.opLdaImm, cfg.opLdaZp, cfg.opLdaZpx] then 2
      else if op ∈ [cfg.opLdaAbs, cfg.opLdaAbsx, cfg.opLdaAbsy, cfg.opJmpAbs, cfg.opJmpInd] then 3 else 1 := by
  simp only [Config.form, apply_ite Form.length, List.mem_cons, List.not_mem_nil, or_false, ite_or]
  rfl

/-- A decode consumes exactly the bytes of the form that the first byte selects. -/
theorem decode_consumes_form_length {cfg : Config} {op : Byte} {tail rest : List Byte} {i : Instr}
    (h : decode cfg (op :: tail) = .ok (i, rest)) : tail.length + 1 = rest.length + (cfg.form op).length := by
  obtain ⟨op', operands, b1, b2, hbytes, hoperands, -⟩ := decode_ok_cases h
  obtain ⟨rfl, rfl⟩ := List.cons.inj hbytes
  have hcount : operands.length = (cfg.form op).format.operandBytes := by
    rw [hoperands, List.length_take]
    exact Nat.min_eq_left (Form.operandBytes_le _)
  rw [List.length_append, hcount, Form.length]
  omega

/-- Only the form of `JMP` Indirect is assembled to that instruction, with the word of the two operand bytes. -/
theorem wordOf_of_assemble_eq_jmpInd {f : Form} {op b1 b2 : Byte} {w : Word} (h : assemble f op b1 b2 = .jmpInd w) :
    wordOf b1 b2 = w := by
  cases f with
  | jmpInd => exact Instr.jmpInd.inj h
  | ldaImm | ldaZp | ldaZpx | ldaAbs | ldaAbsx | ldaAbsy | jmpAbs | unknown => cases h

end Sys2Proof

namespace Sys2Proof.Machine

/-- The step at an unknown byte: one byte is fetched and reported. -/
theorem step_of_unknown {s : State} {op : Byte} (hunknown : op ∉ s.cfg.opcodes) (hop : OpcodeAtPc s op) :
    step s = .next (reportUnknown op s.pc (s.fetched 1)) := by
  rw [step, instrAtPc_eq, hop, Config.form_unknown hunknown]
  rfl

/-- Settles O5: a decode consumes the length of the selected form, which the dispatch gives opcode by opcode; the step at
an unknown byte has fetched one byte. -/
theorem opcodeByteAloneDecidesLength : Obligations.OpcodeByteAloneDecidesLength := by
  constructor
  · intro cfg op tail i rest h
    rw [← Config.form_length]
    exact decode_consumes_form_length h
  · intro s t op hunknown hop ht
    rw [step_of_unknown hunknown hop] at ht
    cases ht
    rfl

/-! ## What ends a step -/

/-- `JMP` Indirect: the jump to the pointer's target, or the fault of the second pointer read. -/
theorem execJmpInd_eq (word : Word) (s : State) :
    execJmpInd word s =
      if word = 0xFFFF then .fault (.addressOutOfRange 0x10000 ((s.fetched 3).cycle 1))
      else
        let target := wordOf (s.mem.byteAt word.toNat) (s.mem.byteAt (word.toNat + 1))
        .next (((((s.fetched 3).cycle 1).cycle 1).setAbr target.toNat).setPc target) := by
  rw [execJmpInd, resolveIndirect_eq]
  by_cases hw : word = 0xFFFF
  · simp only [if_pos hw]
  · simp only [if_neg hw, State.fetched_mem, State.setAbr_abr, BitVec.ofNat_toNat, BitVec.setWidth_eq]

theorem loadFromAbr_next_or_fault (s : State) : (∃ t, loadFromAbr s = .next t) ∨ ∃ f, loadFromAbr s = .fault f := by
  rcases Nat.lt_or_ge s.abr memSize with h | h
  · exact .inl ⟨_, loadFromAbr_of_lt h⟩
  · exact .inr ⟨_, loadFromAbr_of_le h⟩

theorem execJmpInd_next_or_fault (word : Word) (s : State) :
    (∃ t, execJmpInd word s = .next t) ∨ ∃ f, execJmpInd word s = .fault f := by
  rw [execJmpInd_eq]
  by_cases hw : word = 0xFFFF
  · exact .inr ⟨_, if_pos hw⟩
  · exact .inl ⟨_, if_neg hw⟩

/-- Every instruction completes or faults. -/
theorem exec_next_or_fault (i : Instr) (s : State) : (∃ t, exec i s = .next t) ∨ ∃ f, exec i s = .fault f := by
  cases i with
  | ldaImm imm8 => exact .inl ⟨_, rfl⟩
  | ldaZp zp8 => exact loadFromAbr_next_or_fault _
  | ldaZpx zp8 => exact loadFromAbr_next_or_fault _
  | ldaAbs word => exact loadFromAbr_next_or_fault _
  | ldaAbsx word => exact loadFromAbr_next_or_fault _
  | ldaAbsy word => exact loadFromAbr_next_or_fault _
  | jmpAbs word => exact .inl ⟨_, rfl⟩
  | jmpInd word => exact execJmpInd_next_or_fault word s
  | unknown op => exact .inl ⟨_, rfl⟩

theorem exec_ne_refused (i : Instr) (s : State) (r : Refusal) : exec i s ≠ .refused r := by
  intro h
  obtain ⟨t, ht⟩ | ⟨f, hf⟩ := exec_next_or_fault i s
  · rw [h] at ht
    cases ht
  · rw [h] at hf
    cases hf

/-! ## Steps that complete -/

theorem indexedAddr_zero_lt (word : Word) : indexedAddr word 0 < memSize := word.isLt

theorem zeroPageXAddr_lt (cfg : Config) (zp8 x : Byte) : zeroPageXAddr cfg zp8 x < memSize :=
  Nat.lt_of_le_of_lt (zeroPageXAddr_le cfg zp8 x) (by decide)

theorem loadFromAbr_completes {s : State} (h : s.abr < memSize) : ∃ t, loadFromAbr s = .next t :=
  ⟨_, loadFromAbr_of_lt h⟩

/-- With the index registers 0, `JMP ($FFFF)` is the only instruction that can fault: every load reads at
its operand word or in the two lowest pages. -/
theorem exec_completes_of_index_zero {i : Instr} {s : State} (hx : s.x = 0) (hy : s.y = 0) (hi : i ≠ .jmpInd 0xFFFF) :
    ∃ t, exec i s = .next t := by
  cases i with
  | ldaImm imm8 => exact ⟨_, rfl⟩
  | ldaZp zp8 => exact loadFromAbr_completes (zeroPageAddr_lt zp8)
  | ldaZpx zp8 => exact loadFromAbr_completes (zeroPageXAddr_lt _ zp8 _)
  | ldaAbs word => exact loadFromAbr_completes (absoluteAddr_lt word)
  | ldaAbsx word =>
    rw [exec, execLdaAbsx, hx]
    exact loadFromAbr_completes (indexedAddr_zero_lt word)
  | ldaAbsy word =>
    rw [exec, execLdaAbsy, hy]
    exact loadFromAbr_completes (indexedAddr_zero_lt word)
  | jmpAbs word => exact ⟨_, rfl⟩
  | jmpInd word =>
    have hw : word ≠ 0xFFFF := fun h => hi (congrArg Instr.jmpInd h)
    exact ⟨_, (execJmpInd_eq word s).trans (if_neg hw)⟩
  | unknown op => exact ⟨_, rfl⟩

/-- A `JMP` Indirect at `PC` has its pointer in the two bytes after the opcode. -/
theorem operandWordAtPc_of_jmpInd {s : State} {w : Word} (h : instrAtPc s = .jmpInd w) : OperandWordAtPc s w := by
  rw [instrAtPc_eq] at h
  rw [OperandWordAtPc, ← wordOf_toNat, wordOf_of_assemble_eq_jmpInd h]

/-- Settles O7: three bytes decode, every instruction completes or faults, and the one that can fault at index 0 has the
operand word 0xFFFF. -/
theorem noEncodingStopsTheMachine : Obligations.NoEncodingStopsTheMachine := by
  refine ⟨fun cfg op b1 b2 rest => ⟨_, _, decode_three cfg op b1 b2 rest⟩, fun s => exec_ne_refused (instrAtPc s) s, ?_⟩
  intro s hx hy hword
  have hinstr : instrAtPc s ≠ .jmpInd 0xFFFF := fun h => hword (operandWordAtPc_of_jmpInd h)
  exact exec_completes_of_index_zero hx hy hinstr

end Sys2Proof.Machine
end

section
/-!
The cycles of each instruction (spec/70_reset_and_hazards.md section 4): one for each byte fetched or read, one for the
index of Zero Page,X, and the page-cross charge of the indexed absolute modes (spec/40_addressing_modes.md rule R70).
-/

namespace Sys2Proof.Machine

/-- The read of a completing load is one cycle. -/
theorem loadFromAbr_cycleCount {s t : State} (ht : loadFromAbr s = .next t) : t.cycleCount = s.cycleCount + 1 := by
  rcases Nat.lt_or_ge s.abr memSize with h | h
  · rw [loadFromAbr_of_lt h] at ht
    cases ht
    rfl
  · rw [loadFromAbr_of_le h] at ht
    cases ht

theorem resolveAbsoluteIndexed_cycleCount (word : Word) (r : Byte) (s : State) :
    (resolveAbsoluteIndexed word r s).cycleCount = s.cycleCount + pageCrossCharge s.cfg word r := rfl

/-- The load that Absolute,X and Absolute,Y share: three fetches, the page-cross charge and the read. -/
theorem indexedLoad_cycleCount {word : Word} {r : Byte} {s t : State}
    (ht : loadFromAbr (resolveAbsoluteIndexed word r (s.fetched 3)) = .next t) :
    t.cycleCount = s.cycleCount + 4 +
      (if (word.toNat + r.toNat) / 256 = word.toNat / 256 then 0 else s.cfg.pageCrossExtra.val) := by
  rw [← pageCrossCharge_eq, loadFromAbr_cycleCount ht, resolveAbsoluteIndexed_cycleCount, State.fetched_cycleCount,
    State.fetched_cfg]
  omega

/-- `JMP` Indirect: three fetches and the two reads of the pointer. -/
theorem execJmpInd_cycleCount {word : Word} {s t : State} (ht : execJmpInd word s = .next t) :
    t.cycleCount = s.cycleCount + 5 := by
  rw [execJmpInd_eq] at ht
  split_ifs at ht
  cases ht
  rfl

/-- Settles O31: each total is the number of bytes fetched and read, with the one extra cycle of Zero Page,X and the
page-cross charge of the indexed absolute modes. -/
theorem cyclesOfEachInstruction : Obligations.CyclesOfEachInstruction := by
  intro i s t ht
  cases i with
  | ldaImm imm8 => cases ht; rfl
  | ldaZp zp8 => exact loadFromAbr_cycleCount ht
  | ldaZpx zp8 => exact loadFromAbr_cycleCount ht
  | ldaAbs word => exact loadFromAbr_cycleCount ht
  | ldaAbsx word => exact indexedLoad_cycleCount ht
  | ldaAbsy word => exact indexedLoad_cycleCount ht
  | jmpAbs word => cases ht; rfl
  | jmpInd word => exact execJmpInd_cycleCount ht
  | unknown op => cases ht; rfl

end Sys2Proof.Machine
end

section
/-!
The six forms of `LDA` (spec/41_load_accumulator.md rules R75 to R81): the next state of each in full, the fault of the
indexed absolute modes, and `N` and `Z` as functions of the loaded byte.
-/

namespace Sys2Proof.Machine

/-! ## The step at an opcode byte and its operand -/

/-- The step at an opcode that takes one operand byte: `mk` is the instruction of its form. -/
theorem step_of_operandByte {s : State} {op b : Byte} {f : Form} {mk : Byte → Instr} (hf : s.cfg.form op = f)
    (hmk : ∀ b1 b2, assemble f op b1 b2 = mk b1) (hop : OpcodeAtPc s op) (hb : OperandByteAtPc s b) :
    step s = exec (mk b) s := by
  rw [step, instrAtPc_eq, hop, hf, hmk, hb]

/-- The step at an opcode that takes an operand word: `mk` is the instruction of its form. -/
theorem step_of_operandWord {s : State} {op : Byte} {w : Word} {f : Form} {mk : Word → Instr} (hf : s.cfg.form op = f)
    (hmk : ∀ b1 b2, assemble f op b1 b2 = mk (wordOf b1 b2)) (hop : OpcodeAtPc s op) (hw : OperandWordAtPc s w) :
    step s = exec (mk w) s := by
  rw [step, instrAtPc_eq, hop, hf, hmk, wordOf_eq_of_toNat hw]

/-! ## Loads that always complete -/

theorem exec_ldaZp_eq (zp8 : Byte) (s : State) :
    exec (.ldaZp zp8) s =
      .next (loadA (s.mem.byteAt zp8.toNat) (((s.fetched 2).setAbr zp8.toNat).cycle 1)) := by
  have hlt := zeroPageAddr_lt zp8
  rw [zeroPageAddr_eq] at hlt
  rw [exec, execLdaZp, resolveZeroPage, zeroPageAddr_eq]
  exact loadFromAbr_of_lt hlt

theorem exec_ldaZpx_eq (zp8 : Byte) (s : State) :
    exec (.ldaZpx zp8) s =
      .next (loadA (s.mem.byteAt (zeroPageXAddr s.cfg zp8 s.x))
        ((((s.fetched 2).setAbr (zeroPageXAddr s.cfg zp8 s.x)).cycle 1).cycle 1)) :=
  loadFromAbr_of_lt (s := resolveZeroPageX zp8 (s.fetched 2)) (zeroPageXAddr_lt s.cfg zp8 s.x)

theorem exec_ldaAbs_eq (word : Word) (s : State) :
    exec (.ldaAbs word) s =
      .next (loadA (s.mem.byteAt word.toNat) (((s.fetched 3).setAbr word.toNat).cycle 1)) :=
  loadFromAbr_of_lt (s := resolveAbsolute word (s.fetched 3)) (absoluteAddr_lt word)

/-- Settles O13: the step is the fetch of two bytes and the load of the second. -/
theorem ldaImmediateEffect : Obligations.LdaImmediateEffect := by
  intro s imm8
  exact ⟨rfl, fun _ hop hb => step_of_operandByte (Config.form_opLdaImm _) (fun _ _ => rfl) hop hb⟩

/-- Settles O14: the address is in page 0, so that the load completes. -/
theorem ldaZeroPageEffect : Obligations.LdaZeroPageEffect := by
  intro s zp8
  have hexec := exec_ldaZp_eq zp8 s
  refine ⟨hexec, fun hcfg hop hb => ?_⟩
  obtain ⟨hform, -⟩ := Config.form_of_wf hcfg
  exact (step_of_operandByte hform (fun _ _ => rfl) hop hb).trans hexec

/-- Settles O15: the address is in page 0 or page 1 under either setting of `ZPX_REMASK`, so that the load completes. -/
theorem ldaZeroPageXEffect : Obligations.LdaZeroPageXEffect := by
  intro s zp8
  have hexec := exec_ldaZpx_eq zp8 s
  rw [zeroPageXAddr_eq] at hexec
  refine ⟨hexec, fun hcfg hop hb => ?_⟩
  obtain ⟨-, hform, -⟩ := Config.form_of_wf hcfg
  exact (step_of_operandByte hform (fun _ _ => rfl) hop hb).trans hexec

/-- Settles O16: the operand word is an address in range, so that the load completes. -/
theorem ldaAbsoluteEffect : Obligations.LdaAbsoluteEffect := by
  intro s word
  have hexec := exec_ldaAbs_eq word s
  refine ⟨hexec, fun hcfg hop hw => ?_⟩
  obtain ⟨-, -, hform, -⟩ := Config.form_of_wf hcfg
  exact (step_of_operandWord hform (fun _ _ => rfl) hop hw).trans hexec

/-! ## Indexed absolute loads -/

theorem State.cycle_right_comm (s : State) (m n : Nat) : (s.cycle m).cycle n = (s.cycle n).cycle m := by
  simp only [State.cycle, Nat.add_right_comm]

/-- The load that Absolute,X and Absolute,Y share, with the sum in range. The read's cycle is written before
the page-cross charge, so that the fixed cycles stand together. -/
theorem indexedLoad_of_le {word : Word} {r : Byte} {s : State} (h : word.toNat + r.toNat ≤ 0xFFFF) :
    loadFromAbr (resolveAbsoluteIndexed word r (s.fetched 3)) =
      .next (loadA (s.mem.byteAt (word.toNat + r.toNat))
        ((((s.fetched 3).setAbr (word.toNat + r.toNat)).cycle 1).cycle
          (if (word.toNat + r.toNat) / 256 = word.toNat / 256 then 0 else s.cfg.pageCrossExtra.val))) := by
  rw [← pageCrossCharge_eq, State.cycle_right_comm]
  exact loadFromAbr_of_lt (s := resolveAbsoluteIndexed word r (s.fetched 3)) (Nat.lt_succ_of_le h)

/-- The same load with the sum out of range: the fault at the sum, with nothing loaded (R97). -/
theorem indexedLoad_of_lt {word : Word} {r : Byte} {s : State} (h : 0xFFFF < word.toNat + r.toNat) :
    ∃ u, loadFromAbr (resolveAbsoluteIndexed word r (s.fetched 3)) =
        .fault (.addressOutOfRange (word.toNat + r.toNat) u) ∧
      u.a = s.a ∧ u.flagN = s.flagN ∧ u.flagZ = s.flagZ :=
  ⟨_, loadFromAbr_of_le (s := resolveAbsoluteIndexed word r (s.fetched 3)) h, rfl, rfl, rfl⟩

/-- Settles O17: the indexed load with `X`, on both sides of the top of memory. -/
theorem ldaAbsoluteXEffect : Obligations.LdaAbsoluteXEffect := by
  intro s word
  refine ⟨fun h => indexedLoad_of_le h, fun h => indexedLoad_of_lt h, fun hcfg hop hw => ?_⟩
  obtain ⟨-, -, -, hform, -⟩ := Config.form_of_wf hcfg
  exact step_of_operandWord hform (fun _ _ => rfl) hop hw

/-- Settles O18: the indexed load with `Y`, on both sides of the top of memory. -/
theorem ldaAbsoluteYEffect : Obligations.LdaAbsoluteYEffect := by
  intro s word
  refine ⟨fun h => indexedLoad_of_le h, fun h => indexedLoad_of_lt h, fun hcfg hop hw => ?_⟩
  obtain ⟨-, -, -, -, hform, -⟩ := Config.form_of_wf hcfg
  exact step_of_operandWord hform (fun _ _ => rfl) hop hw

/-! ## The flags of a load -/

/-- Bit 7 of a byte is set exactly in its upper half. -/
theorem negativeOf_eq_decide (v : Byte) : negativeOf v = decide (0x80 ≤ v.toNat) :=
  (BitVec.msb_eq_getLsbD_last v).symm.trans (BitVec.msb_eq_decide v)

theorem zeroOf_eq_true_iff (v : Byte) : zeroOf v = true ↔ v = 0 := decide_eq_true_iff

/-- A byte of 1 or more is not zero. -/
theorem zeroOf_of_pos {v : Byte} (h : 1 ≤ v.toNat) : zeroOf v = false :=
  decide_eq_false fun hv => by simp [hv] at h

/-- Settles O22: a completing load leaves `N` and `Z` as functions of the new `A`, which the three ranges of R75 tabulate,
and the five other flags are inert. -/
theorem loadSetsNegativeAndZeroOnly : Obligations.LoadSetsNegativeAndZeroOnly := by
  refine ⟨fun s t v => ⟨rfl, rfl⟩, fun i s t hi ht => ?_⟩
  obtain ⟨hN, hZ⟩ := exec_lda_flags hi ht
  obtain ⟨-, hinert⟩ := (State.inertFields_eq_iff s t).1 (exec_inertFields ht)
  refine ⟨hN, hZ ▸ zeroOf_eq_true_iff t.a, fun hzero => ?_, fun ⟨hpos, hle⟩ => ?_, fun hge => ?_, hinert⟩
  · rw [hN, hZ, hzero]
    exact ⟨rfl, rfl⟩
  · rw [hN, hZ, negativeOf_eq_decide, decide_eq_false (by omega)]
    exact ⟨rfl, zeroOf_of_pos hpos⟩
  · rw [hN, hZ, negativeOf_eq_decide, decide_eq_true hge]
    exact ⟨rfl, zeroOf_of_pos (by omega)⟩

end Sys2Proof.Machine
end

section
/-!
Dispatch (spec/43_dispatch.md rules R87, R88, R91): which byte selects which form, the fetch-by-fetch transition of the
spec's pseudocode against decode-then-run, and the whole effect of an unknown byte.
-/

namespace Sys2Proof

/-! ## The byte that selects a form -/

/-- What a byte selects is encoded with that byte first, whatever the configuration is. -/
theorem encode_assemble_form_head (cfg : Config) (op b1 b2 : Byte) :
    (encode cfg (assemble (cfg.form op) op b1 b2)).head? = some op := by
  unfold Config.form
  split_ifs <;> simp only [assemble, encode, List.head?_cons, *]

/-- A form whose encoding begins with the byte `c`, and which `c` selects, is selected by no other byte. -/
theorem Config.form_eq_iff {cfg : Config} {f : Form} {c : Byte} (hself : cfg.form c = f)
    (hhead : ∀ op, (encode cfg (assemble f op 0 0)).head? = some c) (op : Byte) : cfg.form op = f ↔ op = c := by
  constructor
  · intro h
    have hop := encode_assemble_form_head cfg op 0 0
    rw [h, hhead] at hop
    exact (Option.some.inj hop).symm
  · rintro rfl
    exact hself

end Sys2Proof

namespace Sys2Proof.Machine

/-- Settles O4: each opcode byte selects its own form (R88), and only a form's own byte stands first in its encoding. -/
theorem wholeOpcodeByteSelectsTheArm : Obligations.WholeOpcodeByteSelectsTheArm := by
  refine ⟨fun cfg op hcfg => ?_, fun s => ⟨rfl, instrAtPc_form s⟩⟩
  obtain ⟨hZp, hZpx, hAbs, hAbsx, hAbsy, hJmpAbs, hJmpInd⟩ := Config.form_of_wf hcfg
  exact ⟨Config.form_eq_iff cfg.form_opLdaImm (fun _ => rfl) op, Config.form_eq_iff hZp (fun _ => rfl) op,
    Config.form_eq_iff hZpx (fun _ => rfl) op, Config.form_eq_iff hAbs (fun _ => rfl) op,
    Config.form_eq_iff hAbsx (fun _ => rfl) op, Config.form_eq_iff hAbsy (fun _ => rfl) op,
    Config.form_eq_iff hJmpAbs (fun _ => rfl) op, Config.form_eq_iff hJmpInd (fun _ => rfl) op,
    cfg.form_eq_unknown_iff op⟩

/-! ## The fetches of `executeOne` -/

/-- The opcode fetch leaves the state of one fetched byte. -/
theorem fetchByte_opcode (s : State) : (fetchByte s).2.setReport none = s.fetched 1 := rfl

/-- Fetching `n` bytes after `m` is fetching `m + n`. -/
theorem State.fetched_advance (s : State) (m n : Nat) :
    ((s.fetched m).setPc ((s.fetched m).pc + BitVec.ofNat 16 n)).cycle n = s.fetched (m + n) := by
  rw [State.fetched_pc, BitVec.add_assoc, ← BitVec.ofNat_add]
  simp only [State.fetched, State.setPc, State.setReport, State.cycle, Nat.add_assoc]

/-- The operand byte is the one after the opcode. -/
theorem fetchByte_fetched (s : State) : fetchByte (s.fetched 1) = (s.mem.byteAt (s.pc + 1).toNat, s.fetched 2) :=
  Prod.ext rfl (s.fetched_advance 1 1)

/-- The operand word is made of the two bytes after the opcode. -/
theorem fetchWord_fetched (s : State) :
    fetchWord (s.fetched 1) =
      (wordOf (s.mem.byteAt (s.pc + 1).toNat) (s.mem.byteAt (s.pc + 2).toNat), s.fetched 3) := by
  have hpc : s.pc + 1 + 1 = s.pc + 2 := BitVec.add_assoc s.pc 1 1
  refine Prod.ext ?_ ((fetchWord_snd _).trans (s.fetched_advance 1 2))
  rw [← hpc]
  rfl

/-! ## The arms of `executeOne` -/

/-- The arms of R87 by the form: what `dispatchOpcode` runs once the opcode byte `op`, fetched at `pc0`, has selected
the form. -/
def runArm (op : Byte) (pc0 : Word) (s : State) : Form → Host.Outcome State Fault Refusal
  | .ldaImm => .next (loadA (fetchByte s).1 (fetchByte s).2)
  | .ldaZp => loadFromAbr (fetchZeroPage s)
  | .ldaZpx => loadFromAbr (fetchZeroPageX s)
  | .ldaAbs => loadFromAbr (fetchAbsolute s)
  | .ldaAbsx => loadFromAbr (fetchAbsoluteIndexed s.x s)
  | .ldaAbsy => loadFromAbr (fetchAbsoluteIndexed s.y s)
  | .jmpAbs => .next ((fetchWord s).2.setPc (fetchWord s).1)
  | .jmpInd => jumpIndirect s
  | .unknown => .next (reportUnknown op pc0 s)

/-- The if-chain of R87 tests the bytes in the order of the decoder, so that it runs the arm of the decoder's form. -/
theorem dispatchOpcode_eq_runArm (op : Byte) (pc0 : Word) (s : State) :
    dispatchOpcode op pc0 s = runArm op pc0 s (s.cfg.form op) := by
  simp only [Config.form, apply_ite (runArm op pc0 s)]
  rfl

/-- Each arm, run after the opcode fetch, is the meaning of its instruction with the operand bytes that follow. -/
theorem runArm_fetched (f : Form) (op : Byte) (s : State) :
    runArm op s.pc (s.fetched 1) f =
      exec (assemble f op (s.mem.byteAt (s.pc + 1).toNat) (s.mem.byteAt (s.pc + 2).toNat)) s := by
  cases f with
  | ldaImm => rw [runArm, fetchByte_fetched]; rfl
  | ldaZp => rw [runArm, fetchZeroPage, fetchByte_fetched]; rfl
  | ldaZpx => rw [runArm, fetchZeroPageX, fetchByte_fetched]; rfl
  | ldaAbs => rw [runArm, fetchAbsolute, fetchWord_fetched]; rfl
  | ldaAbsx => rw [runArm, fetchAbsoluteIndexed, fetchWord_fetched]; rfl
  | ldaAbsy => rw [runArm, fetchAbsoluteIndexed, fetchWord_fetched]; rfl
  | jmpAbs => rw [runArm, fetchWord_fetched]; rfl
  | jmpInd => rw [runArm, jumpIndirect, fetchIndirect, fetchWord_fetched]; rfl
  | unknown => rfl

/-- Settles O12: both transitions run the form of the byte at `PC`, and its arm fetches the operand that the decoder
assembles. -/
theorem stepRefinesExecuteOne : Obligations.StepRefinesExecuteOne := by
  intro s
  symm
  calc executeOne s
      = dispatchOpcode (s.mem.byteAt s.pc.toNat) s.pc (s.fetched 1) := by
        rw [executeOne, fetchByte_fst, fetchByte_opcode]
    _ = runArm (s.mem.byteAt s.pc.toNat) s.pc (s.fetched 1) (s.cfg.form (s.mem.byteAt s.pc.toNat)) := by
        rw [dispatchOpcode_eq_runArm, State.fetched_cfg]
    _ = step s := by
        rw [runArm_fetched, step, instrAtPc_eq]

/-! ## The unknown byte -/

/-- Settles O21: one byte is fetched and reported, and the step at an unknown byte is just that. -/
theorem unknownOpcodeEffect : Obligations.UnknownOpcodeEffect :=
  fun _ _ => ⟨rfl, fun hunknown hop => step_of_unknown hunknown hop⟩

end Sys2Proof.Machine
end

section
/-!
Sessions of the host around a fault and a reset (spec/60_exceptions.md rule R97, spec/70_reset_and_hazards.md rules R113,
R114). Reset keeps the parameters alone (log 11), and no command changes them, in the state it leads to or in the record
of its fault; so all that a session can leave for a reset is what its first state had.
-/

namespace Sys2Proof.Machine

/-! ## The parameters of the machine -/

/-- An outcome of the machine with the parameters `cfg`: its state or the record of its fault has them, and it is no
refusal, which no reset could bring back. -/
def HasConfig (cfg : Config) : Host.Outcome State Fault Refusal → Prop
  | .next s => s.cfg = cfg
  | .fault (.addressOutOfRange _ record) => record.cfg = cfg
  | .refused _ => False

theorem loadFromAbr_hasConfig (s : State) : HasConfig s.cfg (loadFromAbr s) := by
  rcases Nat.lt_or_ge s.abr memSize with h | h
  · rw [loadFromAbr_of_lt h]
    exact State.loadA_cfg _ _
  · rw [loadFromAbr_of_le h]
    exact rfl

theorem execJmpInd_hasConfig (word : Word) (s : State) : HasConfig s.cfg (execJmpInd word s) := by
  rw [execJmpInd_eq]
  split_ifs <;> exact rfl

/-- No instruction changes the parameters. -/
theorem exec_hasConfig (i : Instr) (s : State) : HasConfig s.cfg (exec i s) := by
  cases i with
  | ldaImm imm8 => exact State.loadA_cfg _ _
  | ldaZp zp8 => exact loadFromAbr_hasConfig (resolveZeroPage zp8 (s.fetched 2))
  | ldaZpx zp8 => exact loadFromAbr_hasConfig (resolveZeroPageX zp8 (s.fetched 2))
  | ldaAbs word => exact loadFromAbr_hasConfig (resolveAbsolute word (s.fetched 3))
  | ldaAbsx word => exact loadFromAbr_hasConfig (resolveAbsoluteIndexed word s.x (s.fetched 3))
  | ldaAbsy word => exact loadFromAbr_hasConfig (resolveAbsoluteIndexed word s.y (s.fetched 3))
  | jmpAbs word => exact State.setPc_cfg _ _
  | jmpInd word => exact execJmpInd_hasConfig word s
  | unknown op => exact State.setReport_cfg _ _

theorem hostDo_write_hasConfig (addr : Nat) (v : Byte) (s : State) : HasConfig s.cfg (hostDo s (.write addr v)) := by
  rcases Nat.lt_or_ge addr memSize with h | h
  · rw [hostDo_write_of_lt h]
    exact State.setMem_cfg _ _
  · rw [hostDo_write_of_le h]
    exact rfl

@[simp] theorem State.setFlag_cfg (s : State) (f : FlagName) (v : Bool) : (s.setFlag f v).cfg = s.cfg := by
  cases f <;> rfl

/-- No command of the host changes the parameters, reset included (log 11). -/
theorem hostDo_hasConfig (s : State) (c : HostCommand) : HasConfig s.cfg (hostDo s c) := by
  cases c with
  | executeOne => exact exec_hasConfig (instrAtPc s) s
  | write addr v => exact hostDo_write_hasConfig addr v s
  | setFlag f v => exact State.setFlag_cfg s f v
  | reset | setPc v | setSp v | setA v | setX v | setY v | setAbr v | setCycleCount v => exact rfl

/-- Reset after any outcome of the machine is the reset of any state with its parameters (R113). -/
theorem hostAct_reset {o : Host.Outcome State Fault Refusal} {s : State} (h : HasConfig s.cfg o) :
    hostAct o .reset = .next (resetCommand s) := by
  match o, h with
  | .next t, h => exact congrArg Host.Outcome.next (resetCommand_congr h)
  | .fault (.addressOutOfRange addr record), h =>
    rw [hostAct_fault_reset, resetCommand_congr h]

/-- A command keeps the parameters on a machine that runs and on a faulted one. -/
theorem hostAct_hasConfig {cfg : Config} {o : Host.Outcome State Fault Refusal} (h : HasConfig cfg o)
    (c : HostCommand) : HasConfig cfg (hostAct o c) := by
  match o, h with
  | .next t, h => exact h ▸ hostDo_hasConfig t c
  | .fault (.addressOutOfRange addr record), h =>
    by_cases hc : c = .reset
    · rw [hc, hostAct_fault_reset]
      exact h
    · rw [hostAct_fault hc]
      exact h

/-- The commands of a session keep the parameters, through faults and resets. -/
theorem hostSession_hasConfig (s : State) (cs : List HostCommand) : HasConfig s.cfg (hostSession s cs) :=
  List.foldlRecOn cs hostAct rfl fun _ ho c _ => hostAct_hasConfig ho c

/-! ## A faulted machine -/

/-- A faulted machine stays at its fault under commands without a reset (R97, log 22). -/
theorem foldl_hostAct_fault {ds : List HostCommand} (hds : .reset ∉ ds) (f : Fault) :
    ds.foldl hostAct (.fault f) = .fault f := by
  induction ds with
  | nil => rfl
  | cons d ds ih =>
    have hd : d ≠ .reset := (List.ne_of_not_mem_cons hds).symm
    rw [List.foldl_cons, hostAct_fault hd, ih (List.not_mem_of_not_mem_cons hds)]

/-- Settles O51: without a reset the fault is a fixed point of every command; a reset reads the parameters alone, and
those are still the ones of the first state, whatever came before. -/
theorem onlyResetBringsAFaultedMachineBack : Obligations.OnlyResetBringsAFaultedMachineBack := by
  constructor
  · intro s cs ds f hfault hds
    rw [hostSession_append, hfault, foldl_hostAct_fault hds]
  · intro s cs ds
    rw [hostSession_append, List.foldl_cons, hostAct_reset (hostSession_hasConfig s cs)]
    rfl

end Sys2Proof.Machine
end

section
/-!
Nothing depends on time (spec/70_reset_and_hazards.md rule R127): a map that erases fields, for which no operation of the
engine lets an erased field flow into one that is kept, over any run.
-/

namespace Sys2Proof.Machine

/-! ## Erasing fields -/

/-- Up to `f`, the operation comes to the same on the erased state. -/
def ReadsNoErased (f op : State → State) : Prop := ∀ s, f (op (f s)) = f (op s)

/-- Such an operation takes states that agree up to `f` to states that do. -/
theorem ReadsNoErased.agree {f op : State → State} (hop : ReadsNoErased f op) {s t : State} (h : f s = f t) :
    f (op s) = f (op t) := by
  rw [← hop s, h, hop t]

/-- What `f` erases does not flow into what it keeps: `f` keeps what selects the instruction and its operands, and each
write an instruction is made of comes to the same, up to `f`, on the erased state. Only two operations read a parameter
other than the opcode bytes: the resolver of the indexed absolute modes, and `LDA` Zero Page,X, which is taken as a whole
because the byte it loads may depend on an erased `ZPX_REMASK`. -/
structure Noninterfering (f : State → State) : Prop where
  pc : ∀ s, (f s).pc = s.pc
  x : ∀ s, (f s).x = s.x
  y : ∀ s, (f s).y = s.y
  mem : ∀ s, (f s).mem = s.mem
  form : ∀ s op, (f s).cfg.form op = s.cfg.form op
  fetched : ∀ n, ReadsNoErased f (fun s => s.fetched n)
  setPc : ∀ v, ReadsNoErased f (fun s => s.setPc v)
  setAbr : ∀ v, ReadsNoErased f (fun s => s.setAbr v)
  setReport : ∀ r, ReadsNoErased f (fun s => s.setReport r)
  cycle : ∀ n, ReadsNoErased f (fun s => s.cycle n)
  loadA : ∀ v, ReadsNoErased f (loadA v)
  resolveAbsoluteIndexed : ∀ word r, ReadsNoErased f (resolveAbsoluteIndexed word r)
  ldaZpx : ∀ zp8 s, mapOutcome f (exec (.ldaZpx zp8) (f s)) = mapOutcome f (exec (.ldaZpx zp8) s)

namespace Noninterfering

section
variable {f : State → State} (hf : Noninterfering f)
include hf

theorem mem_eq {s t : State} (h : f s = f t) : s.mem = t.mem := by
  rw [← hf.mem s, h, hf.mem t]

/-- A load through one address in two states that agree up to `f`. -/
theorem loadFromAbr_congr {s t : State} (h : f s = f t) (habr : s.abr = t.abr) :
    mapOutcome f (loadFromAbr s) = mapOutcome f (loadFromAbr t) := by
  rcases Nat.lt_or_ge t.abr memSize with ht | ht
  · rw [loadFromAbr_of_lt ht, loadFromAbr_of_lt (habr ▸ ht), habr, hf.mem_eq h]
    exact congrArg Host.Outcome.next ((hf.loadA _).agree ((hf.cycle 1).agree h))
  · rw [loadFromAbr_of_le ht, loadFromAbr_of_le (habr ▸ ht), habr, mapOutcome, mapOutcome, h]

theorem execJmpInd_erased (word : Word) (s : State) :
    mapOutcome f (execJmpInd word (f s)) = mapOutcome f (execJmpInd word s) := by
  have hread := (hf.cycle 1).agree (hf.fetched 3 s)
  rw [execJmpInd_eq, execJmpInd_eq, hf.mem]
  by_cases hw : word = 0xFFFF
  · rw [if_pos hw, if_pos hw, mapOutcome, mapOutcome, hread]
  · rw [if_neg hw, if_neg hw]
    exact congrArg Host.Outcome.next ((hf.setPc _).agree ((hf.setAbr _).agree ((hf.cycle 1).agree hread)))

/-- No instruction lets an erased field flow into a kept one. -/
theorem exec_erased (i : Instr) (s : State) : mapOutcome f (exec i (f s)) = mapOutcome f (exec i s) := by
  cases i with
  | ldaImm imm8 => exact congrArg Host.Outcome.next ((hf.loadA imm8).agree (hf.fetched 2 s))
  | ldaZp zp8 => exact hf.loadFromAbr_congr ((hf.setAbr _).agree (hf.fetched 2 s)) rfl
  | ldaZpx zp8 => exact hf.ldaZpx zp8 s
  | ldaAbs word => exact hf.loadFromAbr_congr ((hf.setAbr _).agree (hf.fetched 3 s)) rfl
  | ldaAbsx word =>
    rw [exec, exec, execLdaAbsx, execLdaAbsx, hf.x]
    exact hf.loadFromAbr_congr ((hf.resolveAbsoluteIndexed word s.x).agree (hf.fetched 3 s)) rfl
  | ldaAbsy word =>
    rw [exec, exec, execLdaAbsy, execLdaAbsy, hf.y]
    exact hf.loadFromAbr_congr ((hf.resolveAbsoluteIndexed word s.y).agree (hf.fetched 3 s)) rfl
  | jmpAbs word => exact congrArg Host.Outcome.next ((hf.setPc word).agree (hf.fetched 3 s))
  | jmpInd word => exact hf.execJmpInd_erased word s
  | unknown op =>
    rw [exec, exec, execUnknown, execUnknown, hf.pc]
    exact congrArg Host.Outcome.next ((hf.setReport _).agree (hf.fetched 1 s))

theorem instrAtPc_erased (s : State) : instrAtPc (f s) = instrAtPc s := by
  rw [instrAtPc_eq, instrAtPc_eq, hf.pc, hf.mem, hf.form]

theorem step_congr {s t : State} (h : f s = f t) : mapOutcome f (step s) = mapOutcome f (step t) := by
  have herased : ∀ u, mapOutcome f (step (f u)) = mapOutcome f (step u) := fun u => by
    rw [step, step, hf.instrAtPc_erased, hf.exec_erased]
  rw [← herased s, h, herased t]

/-- Runs from states that agree up to `f` have outcomes that agree up to `f`. -/
theorem run_congr (k : Nat) {s t : State} (h : f s = f t) : mapOutcome f (run k s) = mapOutcome f (run k t) := by
  induction k generalizing s t with
  | zero => exact congrArg Host.Outcome.next h
  | succ k ih =>
    have hstep := hf.step_congr h
    rw [run_succ, run_succ]
    match step s, step t, hstep with
    | .next u, .next v, hstep => exact ih (Host.Outcome.next.inj hstep)
    | .fault _, .fault _, hstep => exact hstep
    | .refused _, .refused _, hstep => exact hstep
    | .next _, .fault (.addressOutOfRange _ _), hstep | .next _, .refused _, hstep
    | .fault (.addressOutOfRange _ _), .next _, hstep | .fault (.addressOutOfRange _ _), .refused _, hstep
    | .refused _, .next _, hstep | .refused _, .fault (.addressOutOfRange _ _), hstep => cases hstep

end

end Noninterfering

/-! ## The count and the parameters -/

/-- The count and `PAGE_CROSS_EXTRA` erased. -/
def State.eraseTiming (s : State) : State :=
  { s with cycleCount := 0, cfg := { s.cfg with pageCrossExtra := 0 } }

/-- `ZPX_REMASK` erased, with the fields that the load through its address writes. -/
def State.eraseZpxRemask (s : State) : State :=
  { s with a := 0, flagN := false, flagZ := false, abr := 0, cfg := { s.cfg with zpxRemask := false } }

theorem zeroPageXAddr_eraseTiming (zp8 : Byte) (s : State) :
    zeroPageXAddr s.eraseTiming.cfg zp8 s.eraseTiming.x = zeroPageXAddr s.cfg zp8 s.x := by
  simp only [zeroPageXAddr_eq, State.eraseTiming]

/-- `LDA` Zero Page,X but for its cycles. -/
theorem exec_ldaZpx_eraseTiming (zp8 : Byte) (s : State) :
    mapOutcome State.eraseTiming (exec (.ldaZpx zp8) s) =
      .next (loadA (s.mem.byteAt (zeroPageXAddr s.cfg zp8 s.x))
        ((s.fetched 2).eraseTiming.setAbr (zeroPageXAddr s.cfg zp8 s.x))) := by
  rw [exec_ldaZpx_eq]
  rfl

theorem State.eraseTiming_noninterfering : Noninterfering State.eraseTiming := by
  constructor
  case ldaZpx =>
    intro zp8 s
    rw [exec_ldaZpx_eraseTiming, exec_ldaZpx_eraseTiming, zeroPageXAddr_eraseTiming]
    rfl
  case pc | x | y | mem | form => intros; rfl
  all_goals intros; exact fun _ => rfl

/-- Under either setting `LDA` Zero Page,X completes, in the same four cycles (R68). -/
theorem exec_ldaZpx_eraseZpxRemask (zp8 : Byte) (s : State) :
    mapOutcome State.eraseZpxRemask (exec (.ldaZpx zp8) s) = .next ((s.eraseZpxRemask.fetched 2).cycle 2) := by
  rw [exec_ldaZpx_eq]
  rfl

theorem State.eraseZpxRemask_noninterfering : Noninterfering State.eraseZpxRemask := by
  constructor
  case ldaZpx =>
    intro zp8 s
    rw [exec_ldaZpx_eraseZpxRemask, exec_ldaZpx_eraseZpxRemask]
    rfl
  case pc | x | y | mem | form => intros; rfl
  all_goals intros; exact fun _ => rfl

/-- Settles O48: neither the timing fields nor `ZPX_REMASK` with the results of its load flow into any other field, and
the changed start agrees with the old one up to them. -/
theorem timingIsAnOutputOnly : Obligations.TimingIsAnOutputOnly := by
  constructor
  · intro k s n p
    exact State.eraseTiming_noninterfering.run_congr k rfl
  · intro k s b
    exact State.eraseZpxRemask_noninterfering.run_congr k rfl

end Sys2Proof.Machine
end

section
/-!
Reset (spec/70_reset_and_hazards.md rules R113, R114), and the registers that no program can change afterwards (rule R123).
-/

namespace Sys2Proof.Machine

/-! ## Reset -/

/-- The reset command and the initial state leave the same record, with the parameters of the machine (R25, R113, log 11). -/
theorem eq_reset_of_mem {r s : State} (hr : r ∈ [resetCommand s, State.reset]) :
    ∃ cfg, r = { State.reset with cfg := cfg } := by
  obtain rfl | rfl := List.mem_pair.1 hr
  · exact ⟨s.cfg, resetCommand_eq s⟩
  · exact ⟨Config.default, rfl⟩

/-- Settles O8: reset is one record but for the parameters, and that record holds the values of R113. -/
theorem resetGivesEveryRegisterAndCell : Obligations.ResetGivesEveryRegisterAndCell := by
  intro s
  refine ⟨rfl, fun r hr => ?_⟩
  obtain ⟨cfg, rfl⟩ := eq_reset_of_mem hr
  exact ⟨rfl, rfl, rfl, rfl, rfl, rfl, rfl, rfl, rfl, rfl, rfl, rfl, rfl, rfl, Memory.byteAt_nil⟩

/-- Settles O9: reset keeps the parameters and reads nothing else, so a second reset finds what the first one found. -/
theorem resetIsIdempotent : Obligations.ResetIsIdempotent :=
  ⟨fun _ => ⟨resetCommand_congr rfl, Memory.byteAt_nil⟩, fun _ _ h => resetCommand_congr h⟩

/-! ## The index registers -/

/-- The two index registers. -/
def State.indexRegisters (s : State) : Byte × Byte := (s.x, s.y)

theorem loadFromAbr_indexRegisters {s t : State} (ht : loadFromAbr s = .next t) :
    t.indexRegisters = s.indexRegisters := by
  rcases Nat.lt_or_ge s.abr memSize with h | h
  · rw [loadFromAbr_of_lt h] at ht
    cases ht
    rfl
  · rw [loadFromAbr_of_le h] at ht
    cases ht

theorem execJmpInd_indexRegisters {word : Word} {s t : State} (ht : execJmpInd word s = .next t) :
    t.indexRegisters = s.indexRegisters := by
  rw [execJmpInd_eq] at ht
  split_ifs at ht
  cases ht
  rfl

/-- No instruction writes an index register (R123). -/
theorem exec_indexRegisters {i : Instr} {s t : State} (ht : exec i s = .next t) :
    t.indexRegisters = s.indexRegisters := by
  cases i with
  | ldaImm imm8 => cases ht; rfl
  | ldaZp zp8 => exact (loadFromAbr_indexRegisters ht).trans rfl
  | ldaZpx zp8 => exact (loadFromAbr_indexRegisters ht).trans rfl
  | ldaAbs word => exact (loadFromAbr_indexRegisters ht).trans rfl
  | ldaAbsx word => exact (loadFromAbr_indexRegisters ht).trans rfl
  | ldaAbsy word => exact (loadFromAbr_indexRegisters ht).trans rfl
  | jmpAbs word => cases ht; rfl
  | jmpInd word => exact execJmpInd_indexRegisters ht
  | unknown op => cases ht; rfl

/-- No run writes an index register. -/
theorem run_indexRegisters {k : Nat} {s t : State} (ht : run k s = .next t) : t.indexRegisters = s.indexRegisters :=
  run_next_induction (P := fun _ s t => t.indexRegisters = s.indexRegisters) (fun _ => rfl)
    (fun _ _ _ _ hstep _ hrest => hrest.trans (exec_indexRegisters hstep)) k s t ht

/-! ## Indexed loads at index 0 -/

/-- With `X` 0 the re-mask changes nothing: the base is a byte. -/
theorem zeroPageXAddr_zero (cfg : Config) (zp8 : Byte) : zeroPageXAddr cfg zp8 0 = zp8.toNat := by
  rw [zeroPageXAddr_eq, show (0 : Byte).toNat = 0 from rfl, Nat.add_zero, Nat.mod_eq_of_lt zp8.isLt, ite_self]

theorem exec_ldaZpx_of_x_zero {s : State} (hx : s.x = 0) (zp8 : Byte) :
    ∃ u, exec (.ldaZpx zp8) s = .next u ∧ u.a = s.mem.byteAt zp8.toNat := by
  refine ⟨_, exec_ldaZpx_eq zp8 s, ?_⟩
  rw [State.loadA_a, hx, zeroPageXAddr_zero]

/-- The load that Absolute,X and Absolute,Y share, at index 0: the base is a word, so that it completes. -/
theorem indexedLoad_of_zero {word : Word} {r : Byte} {s : State} (hr : r = 0) :
    ∃ u, loadFromAbr (resolveAbsoluteIndexed word r (s.fetched 3)) = .next u ∧ u.a = s.mem.byteAt word.toNat := by
  subst hr
  exact ⟨_, indexedLoad_of_le (Nat.le_of_lt_succ word.isLt), rfl⟩

/-- Settles O25: no instruction writes an index register or an inert field, so that a run ends with the index registers it
began with, and at index 0 an indexed load reads at its base. -/
theorem programCannotChangeIndexRegisters : Obligations.ProgramCannotChangeIndexRegisters := by
  refine ⟨⟨rfl, rfl⟩, fun k s t ht => ?_⟩
  obtain ⟨hx, hy⟩ := Prod.mk.inj (run_indexRegisters ht)
  obtain ⟨hsp, hC, hI, hD, hB, hO⟩ := (State.inertFields_eq_iff s t).1 (run_inertFields ht)
  refine ⟨hx, hy, hsp, hC, hI, hD, hB, hO, fun hx0 zp8 word => ⟨?_, ?_⟩, fun hy0 word => ?_⟩
  · exact exec_ldaZpx_of_x_zero (hx.trans hx0) zp8
  · exact indexedLoad_of_zero (hx.trans hx0)
  · exact indexedLoad_of_zero (hy.trans hy0)

end Sys2Proof.Machine
end

section
/-!
The encoding (spec/30_encoding.md sections 1 to 4): encoding and decoding are inverse to each other on well-formed
instructions, whatever the opcode bytes are, and the opcode bytes are eight of the 256.
-/

namespace Sys2Proof

/-! ## Decoding what was encoded -/

/-- Settles O1: each written-out word, evaluated. -/
theorem specEncodingsDecode : Obligations.SpecEncodingsDecode := by
  unfold Obligations.SpecEncodingsDecode
  decide

/-- The decoder at an opcode that takes one operand byte: `mk` is the instruction of its form. -/
theorem decode_operandByte {cfg : Config} {op b : Byte} {rest : List Byte} {f : Form} {mk : Byte → Instr}
    (hf : cfg.form op = f) (hlen : f.format.operandBytes = 1) (hmk : ∀ b1 b2, assemble f op b1 b2 = mk b1) :
    decode cfg (op :: b :: rest) = .ok (mk b, rest) := by
  simp only [decode, hf, hlen, hmk]

/-- The decoder at an opcode that takes an operand word, low byte first: `mk` is the instruction of its form. -/
theorem decode_operandWord {cfg : Config} {op : Byte} {w : Word} {rest : List Byte} {f : Form} {mk : Word → Instr}
    (hf : cfg.form op = f) (hlen : f.format.operandBytes = 2)
    (hmk : ∀ b1 b2, assemble f op b1 b2 = mk (wordOf b1 b2)) :
    decode cfg (op :: loByte w :: hiByte w :: rest) = .ok (mk w, rest) := by
  simp only [decode, hf, hlen, hmk, wordOf_lo_hi]

/-- The decoder at an unknown byte takes that byte alone. -/
theorem decode_unknown {cfg : Config} {op : Byte} (h : op ∉ cfg.opcodes) (rest : List Byte) :
    decode cfg (op :: rest) = .ok (.unknown op, rest) := by
  simp [decode, Config.form_unknown h, Form.format, Format.operandBytes, assemble]

/-- Settles O2: the opcode byte of each instruction selects its own form, and the operand is put together from the bytes
it was taken apart into. -/
theorem encodedInstructionDecodesToItself : Obligations.EncodedInstructionDecodesToItself := by
  intro cfg i rest hcfg hi
  obtain ⟨hZp, hZpx, hAbs, hAbsx, hAbsy, hJmpAbs, hJmpInd⟩ := Config.form_of_wf hcfg
  cases i with
  | ldaImm imm8 => exact decode_operandByte cfg.form_opLdaImm rfl (fun _ _ => rfl)
  | ldaZp zp8 => exact decode_operandByte hZp rfl (fun _ _ => rfl)
  | ldaZpx zp8 => exact decode_operandByte hZpx rfl (fun _ _ => rfl)
  | ldaAbs word => exact decode_operandWord hAbs rfl (fun _ _ => rfl)
  | ldaAbsx word => exact decode_operandWord hAbsx rfl (fun _ _ => rfl)
  | ldaAbsy word => exact decode_operandWord hAbsy rfl (fun _ _ => rfl)
  | jmpAbs word => exact decode_operandWord hJmpAbs rfl (fun _ _ => rfl)
  | jmpInd word => exact decode_operandWord hJmpInd rfl (fun _ _ => rfl)
  | unknown op => exact decode_unknown (of_decide_eq_true hi) rest

/-! ## Encoding what was decoded -/

/-- What a byte and the two after it are assembled to is encoded as that byte and the operand bytes of its form. -/
theorem encode_assemble_form (cfg : Config) (op b1 b2 : Byte) :
    encode cfg (assemble (cfg.form op) op b1 b2) = op :: [b1, b2].take (cfg.form op).format.operandBytes := by
  unfold Config.form
  split_ifs <;> simp [assemble, encode, Form.format, Format.operandBytes, *]

/-- The decoder answers `UNKNOWN` for an unknown byte only (R59). -/
theorem wellFormed_assemble_form (cfg : Config) (op b1 b2 : Byte) :
    WellFormed cfg (assemble (cfg.form op) op b1 b2) = true := by
  cases hf : cfg.form op with
  | unknown => exact decide_eq_true ((cfg.form_eq_unknown_iff op).1 hf)
  | ldaImm | ldaZp | ldaZpx | ldaAbs | ldaAbsx | ldaAbsy | jmpAbs | jmpInd => rfl

/-- Settles O3: an answer of the decoder is assembled from the opcode byte and its operand bytes, and these are what the
assembled instruction is encoded as. -/
theorem decodedBytesAreTheEncoding : Obligations.DecodedBytesAreTheEncoding := by
  intro cfg bs i rest h
  obtain ⟨op, operands, b1, b2, rfl, rfl, rfl⟩ := decode_ok_cases h
  exact ⟨by rw [encode_assemble_form, List.cons_append], wellFormed_assemble_form cfg op b1 b2⟩

/-! ## The 256 byte values -/

/-- All byte values, in rising order. -/
def allBytes : List Byte := (List.range 256).map (BitVec.ofNat 8)

theorem mem_allBytes (b : Byte) : b ∈ allBytes :=
  List.mem_map.2 ⟨b.toNat, List.mem_range.2 b.isLt, BitVec.ofNat_toNat ..⟩

theorem allBytes_nodup : allBytes.Nodup := by
  refine List.Nodup.map_on (fun a ha b hb h => ?_) List.nodup_range
  have hab := congrArg BitVec.toNat h
  rw [List.mem_range] at ha hb
  simp only [BitVec.toNat_ofNat] at hab
  omega

/-- With pairwise distinct opcode bytes, the implemented bytes among all bytes are the eight opcodes. -/
theorem length_implemented_allBytes {cfg : Config} (hcfg : cfg.wf) :
    (allBytes.filter (fun op => decide (cfg.form op ≠ .unknown))).length = 8 := by
  have hperm : (allBytes.filter (fun op => decide (cfg.form op ≠ .unknown))).Perm cfg.opcodes := by
    refine (List.perm_ext_iff_of_nodup (allBytes_nodup.filter _) hcfg).2 fun op => ?_
    simp only [List.mem_filter, mem_allBytes, true_and, decide_eq_true_iff, ne_eq, cfg.form_eq_unknown_iff, not_not]
  exact hperm.length_eq

/-- The unknown bytes are the rest. -/
theorem length_unknown_allBytes {cfg : Config} (hcfg : cfg.wf) :
    (allBytes.filter (fun op => decide (cfg.form op = .unknown))).length = 248 := by
  have hall : allBytes.length = 256 := by simp [allBytes]
  have himpl := length_implemented_allBytes hcfg
  have hsplit := List.length_eq_length_filter_add (l := allBytes) (fun op => decide (cfg.form op = .unknown))
  simp only [ne_eq, decide_not] at himpl
  omega

/-- Settles O6: the implemented bytes are the eight opcodes, and the unknown ones are the rest of the 256. -/
theorem eightBytesImplemented248Unknown : Obligations.EightBytesImplemented248Unknown :=
  fun _ hcfg => ⟨length_implemented_allBytes hcfg, length_unknown_allBytes hcfg⟩

end Sys2Proof
end

section
/-!
How an instruction ends: the next state of each, the fault of each, and the record at the fault (spec/60_exceptions.md
rules R97 to R100).
-/

namespace Sys2Proof.Machine

/-! ## The shared operations, from their outcome -/

theorem loadFromAbr_next_iff {s t : State} :
    loadFromAbr s = .next t ↔ s.abr < memSize ∧ loadA (s.mem.byteAt s.abr) (s.cycle 1) = t := by
  rcases Nat.lt_or_ge s.abr memSize with h | h
  · simp [loadFromAbr_of_lt h, h]
  · simp [loadFromAbr_of_le h, Nat.not_lt.2 h]

theorem loadFromAbr_fault_iff {s r : State} {addr : Nat} :
    loadFromAbr s = .fault (.addressOutOfRange addr r) ↔ memSize ≤ s.abr ∧ s.abr = addr ∧ s = r := by
  rcases Nat.lt_or_ge s.abr memSize with h | h
  · simp [loadFromAbr_of_lt h, Nat.not_le.2 h]
  · simp [loadFromAbr_of_le h, h]

/-- A load at an address in range does not fault. -/
theorem loadFromAbr_ne_fault {s : State} (h : s.abr < memSize) (f : Fault) : loadFromAbr s ≠ .fault f := by
  simp [loadFromAbr_of_lt h]

/-- Where `JMP` Indirect at `word` goes: the word whose low byte is at the pointer and whose high byte is at the
pointer plus 1 (R84). -/
def State.jumpTarget (s : State) (word : Word) : Word :=
  wordOf (s.mem.byteAt word.toNat) (s.mem.byteAt (word.toNat + 1))

theorem State.jumpTarget_toNat (s : State) (word : Word) :
    (s.jumpTarget word).toNat = (s.mem.byteAt word.toNat).toNat + 256 * (s.mem.byteAt (word.toNat + 1)).toNat :=
  wordOf_toNat ..

theorem execJmpInd_next_iff {word : Word} {s t : State} :
    execJmpInd word s = .next t ↔
      word ≠ 0xFFFF ∧ (((s.fetched 3).cycle 2).setAbr (s.jumpTarget word).toNat).setPc (s.jumpTarget word) = t := by
  rw [execJmpInd_eq]
  by_cases hw : word = 0xFFFF
  · simp [hw]
  · rw [if_neg hw, Host.Outcome.next.injEq]
    exact (and_iff_right hw).symm

theorem execJmpInd_fault_iff {word : Word} {s r : State} {addr : Nat} :
    execJmpInd word s = .fault (.addressOutOfRange addr r) ↔
      word = 0xFFFF ∧ 0x10000 = addr ∧ (s.fetched 3).cycle 1 = r := by
  rw [execJmpInd_eq]
  by_cases hw : word = 0xFFFF
  · simp [hw]
  · rw [if_neg hw]
    exact iff_of_false nofun fun h => hw h.1

/-- A sum out of range lies in another page than its base, which is a word. -/
theorem pageCrossCharge_of_le {word : Word} {r : Byte} (h : memSize ≤ word.toNat + r.toNat) (cfg : Config) :
    pageCrossCharge cfg word r = cfg.pageCrossExtra.val := by
  have hword := word.isLt
  rw [pageCrossCharge_eq, if_neg]
  rw [memSize] at h
  omega

/-- The load that Absolute,X and Absolute,Y share faults at a sum out of range, after three fetches and the page-cross
charge (R97, D12). -/
theorem indexedLoad_fault_iff {word : Word} {r : Byte} {s u : State} {addr : Nat} :
    loadFromAbr (resolveAbsoluteIndexed word r (s.fetched 3)) = .fault (.addressOutOfRange addr u) ↔
      addr = word.toNat + r.toNat ∧ memSize ≤ addr ∧
        ((s.fetched 3).setAbr addr).cycle s.cfg.pageCrossExtra.val = u := by
  rw [loadFromAbr_fault_iff]
  constructor
  · rintro ⟨hle, rfl, rfl⟩
    refine ⟨rfl, hle, ?_⟩
    rw [← pageCrossCharge_of_le (word := word) (r := r) hle s.cfg]
    rfl
  · rintro ⟨rfl, hle, rfl⟩
    refine ⟨hle, rfl, ?_⟩
    rw [← pageCrossCharge_of_le hle s.cfg]
    rfl

/-! ## The next state -/

/-- What a load leaves in `ABR`: the effective address of the memory forms; `LDA` Immediate leaves `ABR` alone
(D11, log 10). -/
def State.abrAfterLoad (s : State) : Instr → Nat
  | .ldaZp zp8 => zeroPageAddr zp8
  | .ldaZpx zp8 => zeroPageXAddr s.cfg zp8 s.x
  | .ldaAbs word => absoluteAddr word
  | .ldaAbsx word => indexedAddr word s.x
  | .ldaAbsy word => indexedAddr word s.y
  | .ldaImm _ | .jmpAbs _ | .jmpInd _ | .unknown _ => s.abr

/-- The next state of a load: its bytes are fetched, `ABR` is written, some cycles are charged, a byte goes to `A`. -/
def LoadsTo (i : Instr) (s t : State) : Prop :=
  ∃ v n, loadA v (((s.fetched i.form.length).setAbr (s.abrAfterLoad i)).cycle n) = t

/-- A load from memory that completes has read in range. -/
theorem loadFromAbr_loadsTo {i : Instr} {s t : State} (n : Nat)
    (ht : loadFromAbr (((s.fetched i.form.length).setAbr (s.abrAfterLoad i)).cycle n) = .next t) :
    LoadsTo i s t ∧ (i.form ≠ .ldaImm → s.abrAfterLoad i < memSize) := by
  obtain ⟨hlt, rfl⟩ := loadFromAbr_next_iff.1 ht
  exact ⟨⟨_, n + 1, rfl⟩, fun _ => hlt⟩

/-- A completing `LDA`. -/
theorem exec_lda_next {i : Instr} {s t : State} (hi : i.isLda = true) (ht : exec i s = .next t) :
    LoadsTo i s t ∧ (i.form ≠ .ldaImm → s.abrAfterLoad i < memSize) := by
  cases i with
  | ldaImm imm8 => cases ht; exact ⟨⟨imm8, 0, rfl⟩, fun h => absurd rfl h⟩
  | ldaZp zp8 => exact loadFromAbr_loadsTo (i := .ldaZp zp8) 0 ht
  | ldaZpx zp8 => exact loadFromAbr_loadsTo (i := .ldaZpx zp8) 1 ht
  | ldaAbs word => exact loadFromAbr_loadsTo (i := .ldaAbs word) 0 ht
  | ldaAbsx word => exact loadFromAbr_loadsTo (i := .ldaAbsx word) _ ht
  | ldaAbsy word => exact loadFromAbr_loadsTo (i := .ldaAbsy word) _ ht
  | jmpAbs word => cases hi
  | jmpInd word => cases hi
  | unknown op => cases hi

/-- What a completing instruction leads to: a load, a jump to the operand, a jump through the pointer, or a report. -/
theorem exec_next_cases {i : Instr} {s t : State} (ht : exec i s = .next t) :
    (i.isLda = true ∧ LoadsTo i s t ∧ (i.form ≠ .ldaImm → s.abrAfterLoad i < memSize)) ∨
    (∃ word, i = .jmpAbs word ∧ t = (s.fetched 3).setPc word) ∨
    (∃ word, i = .jmpInd word ∧
      t = (((s.fetched 3).cycle 2).setAbr (s.jumpTarget word).toNat).setPc (s.jumpTarget word)) ∨
    (∃ op, i = .unknown op ∧ t = reportUnknown op s.pc (s.fetched 1)) := by
  cases hi : i.isLda with
  | true => exact .inl ⟨rfl, exec_lda_next hi ht⟩
  | false =>
    cases i with
    | jmpAbs word => cases ht; exact .inr (.inl ⟨word, rfl, rfl⟩)
    | jmpInd word =>
      obtain ⟨-, rfl⟩ := execJmpInd_next_iff.1 ht
      exact .inr (.inr (.inl ⟨word, rfl, rfl⟩))
    | unknown op => cases ht; exact .inr (.inr (.inr ⟨op, rfl, rfl⟩))
    | ldaImm _ | ldaZp _ | ldaZpx _ | ldaAbs _ | ldaAbsx _ | ldaAbsy _ => cases hi

/-- What an instruction reports when it completes, with `PC` at its first byte (R96, R100). -/
def State.reportOf (s : State) : Instr → Option Report
  | .unknown op => some (.unknownOpcode op s.pc)
  | .ldaImm _ | .ldaZp _ | .ldaZpx _ | .ldaAbs _ | .ldaAbsx _ | .ldaAbsy _ | .jmpAbs _ | .jmpInd _ => none

theorem State.reportOf_ne_none_iff (s : State) (i : Instr) : s.reportOf i ≠ none ↔ i.form = .unknown := by
  cases i <;> simp [State.reportOf, Instr.form]

theorem State.reportOf_of_lda {i : Instr} (hi : i.isLda = true) (s : State) : s.reportOf i = none := by
  cases i with
  | jmpAbs _ | jmpInd _ | unknown _ => cases hi
  | ldaImm _ | ldaZp _ | ldaZpx _ | ldaAbs _ | ldaAbsx _ | ldaAbsy _ => rfl

theorem exec_report {i : Instr} {s t : State} (ht : exec i s = .next t) : t.report = s.reportOf i := by
  obtain ⟨hi, ⟨v, n, rfl⟩, -⟩ | ⟨word, rfl, rfl⟩ | ⟨word, rfl, rfl⟩ | ⟨op, rfl, rfl⟩ := exec_next_cases ht
  · exact (State.reportOf_of_lda hi s).symm
  · rfl
  · rfl
  · rfl

/-! ## Faults -/

/-- Settles O34: only the indexed absolute loads and `JMP` Indirect can fault, after their three fetches and the work
that R97 tabulates. -/
theorem registerRecordAtTheFault : Obligations.RegisterRecordAtTheFault := by
  intro i s r addr h
  cases i with
  | ldaImm imm8 => cases h
  | ldaZp zp8 => exact absurd h (loadFromAbr_ne_fault (zeroPageAddr_lt zp8) _)
  | ldaZpx zp8 => exact absurd h (loadFromAbr_ne_fault (zeroPageXAddr_lt _ zp8 _) _)
  | ldaAbs word => exact absurd h (loadFromAbr_ne_fault (absoluteAddr_lt word) _)
  | ldaAbsx word =>
    obtain ⟨-, -, rfl⟩ := indexedLoad_fault_iff.1 h
    exact .inr ⟨.inl rfl, rfl⟩
  | ldaAbsy word =>
    obtain ⟨-, -, rfl⟩ := indexedLoad_fault_iff.1 h
    exact .inr ⟨.inr rfl, rfl⟩
  | jmpAbs word => cases h
  | jmpInd word =>
    obtain ⟨-, -, rfl⟩ := execJmpInd_fault_iff.1 h
    exact .inl ⟨rfl, rfl⟩
  | unknown op => cases h

/-- The fields that the record of a fault has in every case. -/
theorem exec_fault_record {i : Instr} {s r : State} {addr : Nat} (h : exec i s = .fault (.addressOutOfRange addr r)) :
    r.pc = s.pc + 3 ∧ r.mem = s.mem ∧ r.report = none := by
  obtain ⟨-, rfl⟩ | ⟨-, rfl⟩ := registerRecordAtTheFault i s r addr h
  · exact ⟨rfl, rfl, rfl⟩
  · exact ⟨rfl, rfl, rfl⟩

theorem indexedLoad_faults_iff {word : Word} {r : Byte} {s : State} {addr : Nat} :
    (∃ u, loadFromAbr (resolveAbsoluteIndexed word r (s.fetched 3)) = .fault (.addressOutOfRange addr u)) ↔
      addr = word.toNat + r.toNat ∧ 0x10000 ≤ addr := by
  simp only [indexedLoad_fault_iff, exists_and_left, exists_eq', and_true]
  rfl

theorem execJmpInd_faults_iff {word : Word} {s : State} {addr : Nat} :
    (∃ r, execJmpInd word s = .fault (.addressOutOfRange addr r)) ↔ word = 0xFFFF ∧ addr = 0x10000 := by
  simp only [execJmpInd_fault_iff, exists_and_left, exists_eq', and_true, eq_comm (a := addr)]

/-- Settles O33: the indexed sums and the pointer decide the faults; the report of a completing instruction is that of
`reportOf`; and the record of a fault holds none. -/
theorem faultAndReportConditions : Obligations.FaultAndReportConditions := by
  intro i s
  refine ⟨fun addr => ?_, fun t ht => exec_report ht ▸ s.reportOf_ne_none_iff i, fun addr r h => ?_⟩
  · cases i with
    | ldaAbsx word => exact indexedLoad_faults_iff
    | ldaAbsy word => exact indexedLoad_faults_iff
    | jmpInd word => exact execJmpInd_faults_iff
    | ldaImm _ | ldaZp _ | ldaZpx _ | ldaAbs _ | jmpAbs _ | unknown _ =>
      exact iff_of_false (fun ⟨r, h⟩ => by simpa [Instr.form] using registerRecordAtTheFault _ s r addr h) id
  · obtain ⟨-, -, hreport⟩ := exec_fault_record h
    exact hreport

/-- An instruction faults only at an address from 0x10000 to 0x100FE: a word plus a byte (R95). -/
theorem exec_fault_addr {i : Instr} {s r : State} {addr : Nat} (h : exec i s = .fault (.addressOutOfRange addr r)) :
    0x10000 ≤ addr ∧ addr ≤ 0x100FE := by
  have hcond := ((faultAndReportConditions i s).1 addr).1 ⟨r, h⟩
  have hsum (word : Word) (index : Byte) : word.toNat + index.toNat ≤ 0x100FE := by
    have hword := word.isLt
    have hindex := index.isLt
    omega
  cases i with
  | ldaAbsx word =>
    obtain ⟨rfl, hle⟩ := hcond
    exact ⟨hle, hsum word s.x⟩
  | ldaAbsy word =>
    obtain ⟨rfl, hle⟩ := hcond
    exact ⟨hle, hsum word s.y⟩
  | jmpInd word =>
    obtain ⟨-, rfl⟩ := hcond
    decide
  | ldaImm _ | ldaZp _ | ldaZpx _ | ldaAbs _ | jmpAbs _ | unknown _ => exact hcond.elim

end Sys2Proof.Machine
end

section
/-!
Registers and frames (spec/10_state.md sections 3 and 10, spec/40_addressing_modes.md): `PC` and `ABR` after each
instruction, what each leaves alone, and who reads `X`, `Y` and `A`.
-/

namespace Sys2Proof.Machine

/-! ## `PC` and `ABR` -/

/-- Settles O30: a load has fetched the bytes of its form, a jump has written `PC`, and a fault comes after three
fetches. -/
theorem programCounterAfterEachInstruction : Obligations.ProgramCounterAfterEachInstruction := by
  intro i s
  refine ⟨fun t ht => ?_, fun addr r h => ?_⟩
  · cases i with
    | ldaImm _ | ldaZp _ | ldaZpx _ | ldaAbs _ | ldaAbsx _ | ldaAbsy _ =>
      obtain ⟨⟨v, n, rfl⟩, -⟩ := exec_lda_next rfl ht
      rfl
    | jmpAbs word => cases ht; rfl
    | jmpInd word =>
      obtain ⟨-, rfl⟩ := execJmpInd_next_iff.1 ht
      exact s.jumpTarget_toNat word
    | unknown op => cases ht; rfl
  · obtain ⟨hpc, -, -⟩ := exec_fault_record h
    exact hpc

theorem exec_lda_abr {i : Instr} {s t : State} (hi : i.isLda = true) (ht : exec i s = .next t) :
    t.abr = s.abrAfterLoad i ∧ (i.form ≠ .ldaImm → t.abr < memSize) := by
  obtain ⟨⟨v, n, rfl⟩, hlt⟩ := exec_lda_next hi ht
  exact ⟨rfl, hlt⟩

/-- With `ZPX_REMASK` the address of Zero Page,X is a byte (R68, D3). -/
theorem zeroPageXAddr_le_of_remask {cfg : Config} (h : cfg.zpxRemask = true) (zp8 x : Byte) :
    zeroPageXAddr cfg zp8 x ≤ 0xFF := by
  rw [zeroPageXAddr_eq, if_pos h]
  omega

/-- Settles O43: a load leaves its effective address, which the mode bounds and a completing read keeps in range; a jump
through a pointer leaves its target. -/
theorem effectiveAddressRanges : Obligations.EffectiveAddressRanges := by
  intro i s t ht
  cases i with
  | ldaImm imm8 => cases ht; rfl
  | ldaZp zp8 =>
    obtain ⟨habr, -⟩ := exec_lda_abr rfl ht
    rw [habr, State.abrAfterLoad, zeroPageAddr_eq]
    exact Nat.le_of_lt_succ zp8.isLt
  | ldaZpx zp8 =>
    obtain ⟨habr, -⟩ := exec_lda_abr rfl ht
    rw [habr]
    exact ⟨zeroPageXAddr_le .., fun h => zeroPageXAddr_le_of_remask h ..⟩
  | ldaAbs _ | ldaAbsx _ | ldaAbsy _ =>
    obtain ⟨-, hlt⟩ := exec_lda_abr rfl ht
    exact Nat.le_of_lt_succ (hlt nofun)
  | jmpAbs word => cases ht; rfl
  | jmpInd word =>
    obtain ⟨-, rfl⟩ := execJmpInd_next_iff.1 ht
    exact ⟨Nat.le_of_lt_succ (s.jumpTarget word).isLt, rfl⟩
  | unknown op => cases ht; rfl

/-- After a step `ABR` is in the range of memory, if the step has written it at all. -/
theorem exec_abr {i : Instr} {s t : State} (ht : exec i s = .next t) : t.abr = s.abr ∨ t.abr ≤ 0xFFFF := by
  have hrange := effectiveAddressRanges i s t ht
  cases i with
  | ldaImm _ | jmpAbs _ | unknown _ => exact .inl hrange
  | ldaZp _ => exact .inr (hrange.trans (by decide))
  | ldaZpx _ => exact .inr (hrange.1.trans (by decide))
  | ldaAbs _ | ldaAbsx _ | ldaAbsy _ => exact .inr hrange
  | jmpInd _ => exact .inr hrange.1

/-! ## Frames -/

theorem exec_cfg {i : Instr} {s t : State} (ht : exec i s = .next t) : t.cfg = s.cfg := by
  have hcfg := exec_hasConfig i s
  rwa [ht] at hcfg

theorem exec_byteAt {i : Instr} {s t : State} (ht : exec i s = .next t) (addr : Nat) :
    t.mem.byteAt addr = s.mem.byteAt addr := by
  rw [exec_mem ht]

/-- Settles O27: no instruction writes an index register, an inert field, a parameter or memory; a load reports nothing,
and `LDA` Immediate leaves `ABR` alone. -/
theorem loadFrame : Obligations.LoadFrame := by
  intro i s t hi ht
  obtain ⟨hx, hy⟩ := Prod.mk.inj (exec_indexRegisters ht)
  obtain ⟨hsp, hC, hI, hD, hB, hO⟩ := (State.inertFields_eq_iff s t).1 (exec_inertFields ht)
  refine ⟨hx, hy, hsp, hC, hI, hD, hB, hO, fun himm => ?_, exec_cfg ht, ?_, exec_byteAt ht⟩
  · have hrange := effectiveAddressRanges i s t ht
    cases i with
    | ldaImm _ => exact hrange
    | ldaZp _ | ldaZpx _ | ldaAbs _ | ldaAbsx _ | ldaAbsy _ | jmpAbs _ | jmpInd _ | unknown _ => cases himm
  · rw [exec_report ht, State.reportOf_of_lda hi]

/-- Settles O28: a jump to the operand writes `PC`, a jump through a pointer `PC` and `ABR`, an unknown byte the
report. -/
theorem jumpAndUnknownFrame : Obligations.JumpAndUnknownFrame := by
  intro i s t hi ht
  obtain ⟨hlda, -⟩ | ⟨word, rfl, rfl⟩ | ⟨word, rfl, rfl⟩ | ⟨op, rfl, rfl⟩ := exec_next_cases ht
  · rw [hi] at hlda
    cases hlda
  · simp
  · simp [Instr.form]
  · simp [Instr.form, reportUnknown]

/-! ## Who reads `X` and `Y` -/

/-- A change of the state that leaves what the engine reads besides the index registers, and commutes with every write
that an instruction is made of: unlike `CarriedThrough` it may change `X` and `Y`, and the load of `A` carries it. -/
structure CarriedBesidesIndex (f : State → State) : Prop where
  pc : ∀ s, (f s).pc = s.pc
  abr : ∀ s, (f s).abr = s.abr
  mem : ∀ s, (f s).mem = s.mem
  cfg : ∀ s, (f s).cfg = s.cfg
  fetched : ∀ s n, (f s).fetched n = f (s.fetched n)
  setPc : ∀ s v, (f s).setPc v = f (s.setPc v)
  setAbr : ∀ s v, (f s).setAbr v = f (s.setAbr v)
  setReport : ∀ s r, (f s).setReport r = f (s.setReport r)
  cycle : ∀ s n, (f s).cycle n = f (s.cycle n)
  loadA : ∀ s v, loadA v (f s) = f (loadA v s)

namespace CarriedBesidesIndex

section
variable {f : State → State} (hf : CarriedBesidesIndex f)
include hf

theorem loadFromAbr_map (s : State) : loadFromAbr (f s) = mapOutcome f (loadFromAbr s) := by
  rcases Nat.lt_or_ge s.abr memSize with h | h
  · rw [loadFromAbr_of_lt h, loadFromAbr_of_lt (by rwa [hf.abr]), hf.mem, hf.abr, hf.cycle, hf.loadA, mapOutcome]
  · rw [loadFromAbr_of_le h, loadFromAbr_of_le (by rwa [hf.abr]), hf.abr, mapOutcome]

theorem indexedLoad_map (word : Word) (r : Byte) (s : State) :
    loadFromAbr (resolveAbsoluteIndexed word r ((f s).fetched 3)) =
      mapOutcome f (loadFromAbr (resolveAbsoluteIndexed word r (s.fetched 3))) := by
  rw [← hf.loadFromAbr_map]
  simp only [resolveAbsoluteIndexed, hf.fetched, hf.setAbr, hf.cfg, hf.cycle]

theorem execJmpInd_map (word : Word) (s : State) : execJmpInd word (f s) = mapOutcome f (execJmpInd word s) := by
  simp only [execJmpInd_eq, hf.fetched, hf.mem, hf.cycle, hf.setAbr, hf.setPc]
  by_cases hw : word = 0xFFFF
  · rw [if_pos hw, if_pos hw, mapOutcome]
  · rw [if_neg hw, if_neg hw, mapOutcome]

/-- An instruction carries such a change when it leaves the index register that the instruction reads. -/
theorem exec_map {i : Instr} {s : State} (hx : i.form = .ldaZpx ∨ i.form = .ldaAbsx → (f s).x = s.x)
    (hy : i.form = .ldaAbsy → (f s).y = s.y) : exec i (f s) = mapOutcome f (exec i s) := by
  cases i with
  | ldaImm imm8 => simp only [exec, execLdaImm, mapOutcome, hf.fetched, hf.loadA]
  | ldaZp zp8 => simp only [exec, execLdaZp, resolveZeroPage, hf.fetched, hf.setAbr, hf.loadFromAbr_map]
  | ldaZpx zp8 =>
    simp only [exec_ldaZpx_eq, hx (.inl rfl), mapOutcome, hf.cfg, hf.mem, hf.fetched, hf.setAbr, hf.cycle, hf.loadA]
  | ldaAbs word => simp only [exec, execLdaAbs, resolveAbsolute, hf.fetched, hf.setAbr, hf.loadFromAbr_map]
  | ldaAbsx word => rw [exec, execLdaAbsx, hx (.inr rfl), hf.indexedLoad_map]; rfl
  | ldaAbsy word => rw [exec, execLdaAbsy, hy rfl, hf.indexedLoad_map]; rfl
  | jmpAbs word => simp only [exec, execJmpAbs, mapOutcome, hf.fetched, hf.setPc]
  | jmpInd word => exact hf.execJmpInd_map word s
  | unknown op => simp only [exec, execUnknown, reportUnknown, mapOutcome, hf.fetched, hf.pc, hf.setReport]

end

end CarriedBesidesIndex

/-- Another value in `X`. -/
def State.withX (v : Byte) (s : State) : State := { s with x := v }

/-- Another value in `Y`. -/
def State.withY (v : Byte) (s : State) : State := { s with y := v }

theorem State.withX_carried (v : Byte) : CarriedBesidesIndex (State.withX v) := by
  constructor <;> intros <;> rfl

theorem State.withY_carried (v : Byte) : CarriedBesidesIndex (State.withY v) := by
  constructor <;> intros <;> rfl

/-! ## Who reads `A` -/

/-- A carried change that the load of `A` overwrites is gone after an `LDA` that completes. -/
theorem CarriedThrough.exec_lda_overwritten {f : State → State} (hf : CarriedThrough f)
    (hload : ∀ v s, Machine.loadA v (f s) = Machine.loadA v s) {i : Instr} {s t : State} (hi : i.isLda = true)
    (ht : exec i s = .next t) : exec i (f s) = .next t := by
  obtain ⟨v, u, h, h'⟩ | ⟨addr, u, h, -⟩ := hf.exec_lda_same hi s
  · rw [h', hload, ← h, ht]
  · rw [h] at ht
    cases ht

/-- An instruction that does not reach the load of `A` carries the change. -/
theorem CarriedThrough.exec_map_of_no_load {f : State → State} (hf : CarriedThrough f) {i : Instr} {s : State}
    (h : i.isLda = false ∨ ∃ e, exec i s = .fault e) : exec i (f s) = mapOutcome f (exec i s) := by
  cases hi : i.isLda with
  | false => exact hf.exec_not_lda_map hi s
  | true =>
    obtain ⟨e, he⟩ := h.resolve_left (by simp [hi])
    obtain ⟨v, u, hnext, -⟩ | ⟨addr, u, hfault, hfault'⟩ := hf.exec_lda_same hi s
    · rw [hnext] at he
      cases he
    · rw [hfault, hfault', mapOutcome]

/-- Another value in `A`. -/
def State.withA (v : Byte) (s : State) : State := { s with a := v }

theorem State.withA_carried (v : Byte) : CarriedThrough (State.withA v) := by
  constructor <;> intros <;> rfl

/-- Settles O26: a change of `X` or `Y` is carried through every instruction that does not read it, and a change of `A`
through everything but the load that overwrites it. -/
theorem onlyIndexedLoadsReadIndexRegisters : Obligations.OnlyIndexedLoadsReadIndexRegisters := by
  intro i s v
  refine ⟨fun hZpx hAbsx => ?_, fun hAbsy => ?_, (State.withA_carried v).exec_map_of_no_load, fun hi t ht => ?_⟩
  · exact (State.withX_carried v).exec_map (fun h => absurd h (not_or.2 ⟨hZpx, hAbsx⟩)) (fun _ => rfl)
  · exact (State.withY_carried v).exec_map (fun _ => rfl) (fun h => absurd h hAbsy)
  · exact (State.withA_carried v).exec_lda_overwritten (fun _ _ => rfl) hi ht

end Sys2Proof.Machine
end

section
/-!
Runs (spec/60_exceptions.md section 1, spec/70_reset_and_hazards.md sections 3 and 4): how a run ends, what it leaves
unchanged, what it reports, and the invariant of the step boundary.
-/

namespace Sys2Proof.Machine

/-! ## How a run ends -/

theorem run_succ_next_iff {k : Nat} {s u : State} :
    run (k + 1) s = .next u ↔ ∃ t, run k s = .next t ∧ step t = .next u := by
  rw [run_succ_last]
  cases run k s <;> simp

/-- A run completes, or a step of it has ended it. -/
theorem run_next_or_stop (k : Nat) (s : State) :
    (∃ t, run k s = .next t) ∨ ∃ j t f, run j s = .next t ∧ step t = .fault f ∧ run k s = .fault f := by
  induction k with
  | zero => exact .inl ⟨s, rfl⟩
  | succ k ih =>
    rw [run_succ_last]
    obtain ⟨t, ht⟩ | ⟨j, t, f, hj, hstep, hk⟩ := ih
    · rw [ht]
      obtain ⟨u, hu⟩ | ⟨f, hf⟩ := exec_next_or_fault (instrAtPc t) t
      · exact .inl ⟨u, hu⟩
      · exact .inr ⟨k, t, f, ht, hf, hf⟩
    · exact .inr ⟨j, t, f, hj, hstep, by rw [hk]⟩

/-- The fault of a run is the fault of a step from a state that the run reaches. -/
theorem run_fault_step {k : Nat} {s : State} {f : Fault} (h : run k s = .fault f) :
    ∃ j t, run j s = .next t ∧ step t = .fault f := by
  obtain ⟨t, ht⟩ | ⟨j, t, f', hj, hstep, hk⟩ := run_next_or_stop k s
  · rw [h] at ht
    cases ht
  · rw [h] at hk
    cases hk
    exact ⟨j, t, hj, hstep⟩

/-- Settles O37: what ends a run is the fault of one of its steps, whose address is a word plus a byte. -/
theorem runIsSafeOrEndsOutOfRange : Obligations.RunIsSafeOrEndsOutOfRange := by
  intro k s
  obtain hsafe | ⟨j, t, ⟨addr, r⟩, -, hstep, hk⟩ := run_next_or_stop k s
  · exact .inl hsafe
  · exact .inr ⟨addr, r, hk, exec_fault_addr hstep⟩

/-! ## Memory and the cycle count -/

theorem run_mem {k : Nat} {s t : State} (ht : run k s = .next t) : t.mem = s.mem :=
  run_next_induction (P := fun _ s t => t.mem = s.mem) (fun _ => rfl)
    (fun _ _ _ _ hstep _ hrest => hrest.trans (exec_mem hstep)) k s t ht

/-- Settles O29: no completing step writes memory, and the record of a fault holds the memory from before its step. -/
theorem engineNeverWritesMemory : Obligations.EngineNeverWritesMemory := by
  intro k s
  refine ⟨fun t ht => run_mem ht, fun addr r h => ?_⟩
  obtain ⟨j, t, hj, hstep⟩ := run_fault_step h
  obtain ⟨-, hmem, -⟩ := exec_fault_record hstep
  rw [hmem, run_mem hj]

/-- Each instruction takes from 1 to 5 cycles, the page-cross charge being at most 1. -/
theorem exec_cycleCount_bounds {i : Instr} {s t : State} (ht : exec i s = .next t) :
    s.cycleCount + 1 ≤ t.cycleCount ∧ t.cycleCount ≤ s.cycleCount + 5 := by
  have hcharge (word : Word) (r : Byte) :
      (if (word.toNat + r.toNat) / 256 = word.toNat / 256 then 0 else s.cfg.pageCrossExtra.val) ≤ 1 :=
    pageCrossCharge_eq s.cfg word r ▸ pageCrossCharge_le s.cfg word r
  have hcycles := cyclesOfEachInstruction i s t ht
  cases i with
  | ldaImm _ | ldaZp _ | ldaZpx _ | ldaAbs _ | jmpAbs _ | jmpInd _ | unknown _ =>
    rw [hcycles]
    omega
  | ldaAbsx word =>
    have hX := hcharge word s.x
    rw [hcycles]
    omega
  | ldaAbsy word =>
    have hY := hcharge word s.y
    rw [hcycles]
    omega

/-- Settles O32, by induction over the steps of the run. -/
theorem cycleCountGrowsWithEveryStep : Obligations.CycleCountGrowsWithEveryStep := by
  refine run_next_induction (fun s => ⟨Nat.le_refl _, Nat.le_refl _⟩) fun k s u t hstep _ hrest => ?_
  have hbounds := exec_cycleCount_bounds hstep
  omega

/-! ## Reports -/

/-- The instruction at `PC` reports exactly an unimplemented byte there (R96). -/
theorem reportOf_instrAtPc (s : State) :
    s.reportOf (instrAtPc s) =
      if s.mem.byteAt s.pc.toNat ∈ s.cfg.opcodes then none
      else some (.unknownOpcode (s.mem.byteAt s.pc.toNat) s.pc) := by
  split_ifs with h
  · have hform : (instrAtPc s).form ≠ .unknown := by
      rw [instrAtPc_form]
      exact fun hf => (s.cfg.form_eq_unknown_iff _).1 hf h
    exact not_ne_iff.1 (mt (s.reportOf_ne_none_iff _).1 hform)
  · rw [instrAtPc_eq, Config.form_unknown h]
    rfl

theorem step_report {s t : State} (ht : step s = .next t) :
    t.report = if s.mem.byteAt s.pc.toNat ∈ s.cfg.opcodes then none
      else some (.unknownOpcode (s.mem.byteAt s.pc.toNat) s.pc) :=
  (exec_report ht).trans (reportOf_instrAtPc s)

theorem step_report_eq_none_iff {s t : State} (ht : step s = .next t) :
    t.report = none ↔ s.mem.byteAt s.pc.toNat ∈ s.cfg.opcodes := by
  simp [step_report ht]

/-- The fetch of the opcode clears the report (R87), and nothing reads it before. -/
theorem exec_setReport (i : Instr) (s : State) (r : Option Report) : exec i (s.setReport r) = exec i s := by
  cases i <;> rfl

/-- Settles O35: the report of a step is that of the instruction at `PC`, and the first step of a run clears an earlier
one. -/
theorem reportNamesTheUnknownByteAndDoesNotStick : Obligations.ReportNamesTheUnknownByteAndDoesNotStick := by
  refine ⟨fun s t => step_report, fun k s r => ?_⟩
  have hstep : step (s.setReport r) = step s := exec_setReport (instrAtPc s) s r
  rw [run_succ, run_succ, hstep]

/-- Settles O36: step by step, no report and an implemented byte are one condition. -/
theorem runStaysImplementedWhenItsOpcodesAre : Obligations.RunStaysImplementedWhenItsOpcodesAre := by
  intro k s
  constructor
  · intro h j t u hj ht hu
    exact (step_report_eq_none_iff hu).1 (h j u hj (run_succ_next_iff.2 ⟨t, ht, hu⟩))
  · intro h j u hj hu
    obtain ⟨t, ht, hstep⟩ := run_succ_next_iff.1 hu
    exact (step_report_eq_none_iff hstep).2 (h j t u hj ht hstep)

/-! ## The invariant -/

/-- Settles O44: every field of the reset state, evaluated. -/
theorem invariantHoldsAtReset : Obligations.InvariantHoldsAtReset :=
  ⟨reset_wf, by decide, by decide, by decide⟩

/-- The byte 0 has bit 7 clear. -/
theorem not_negativeOf_and_zeroOf (v : Byte) : ¬ (negativeOf v = true ∧ zeroOf v = true) := by
  rintro ⟨hneg, hzero⟩
  rw [(zeroOf_eq_true_iff v).1 hzero] at hneg
  cases hneg

theorem exec_not_negativeZero {i : Instr} {s t : State} (hs : ¬ (s.flagN = true ∧ s.flagZ = true))
    (ht : exec i s = .next t) : ¬ (t.flagN = true ∧ t.flagZ = true) := by
  cases hi : i.isLda with
  | true =>
    obtain ⟨hN, hZ⟩ := exec_lda_flags hi ht
    rw [hN, hZ]
    exact not_negativeOf_and_zeroOf t.a
  | false =>
    obtain ⟨hN, hZ⟩ := exec_not_lda_flags hi ht
    rwa [hN, hZ]

/-- Settles O45: a step keeps memory and the parameters, writes `ABR` in the range of memory or not at all, and takes
`N` and `Z` from one byte or leaves both. -/
theorem everyStepKeepsTheInvariant : Obligations.EveryStepKeepsTheInvariant := by
  intro s t ⟨hmem, hcfg, habr, hflags⟩ ht
  refine ⟨?_, ?_, ?_, exec_not_negativeZero hflags ht⟩
  · rwa [exec_mem ht]
  · rwa [exec_cfg ht]
  · obtain hsame | hle := exec_abr ht
    · rwa [hsame]
    · exact hle.trans (by decide)

/-! ## `ABR` between steps -/

/-- `ABR` erased. -/
def State.eraseAbr (s : State) : State := s.setAbr 0

theorem State.eraseAbr_noninterfering : Noninterfering State.eraseAbr := by
  constructor
  case ldaZpx =>
    intro zp8 s
    rw [exec_ldaZpx_eq, exec_ldaZpx_eq]
    rfl
  case pc | x | y | mem | form => intros; rfl
  all_goals intros; exact fun _ => rfl

/-- Settles O47: every instruction writes `ABR` before it reads it, so that an erased `ABR` flows into no other field
over any run. -/
theorem abrIsDeadBetweenSteps : Obligations.AbrIsDeadBetweenSteps :=
  fun k _ _ => State.eraseAbr_noninterfering.run_congr k rfl

/-! ## Empty memory -/

/-- A machine that runs through empty memory has fetched and reported one byte 0x00 for each step. -/
theorem run_of_zero {s : State} (hunknown : (0x00 : Byte) ∉ s.cfg.opcodes)
    (hmem : ∀ addr, s.mem.byteAt addr = 0x00) (k : Nat) :
    run (k + 1) s = .next (reportUnknown 0x00 (s.pc + BitVec.ofNat 16 k) (s.fetched (k + 1))) := by
  induction k with
  | zero =>
    rw [run_succ_next_iff, BitVec.add_zero]
    exact ⟨s, rfl, step_of_unknown hunknown (hmem _)⟩
  | succ k ih =>
    have hstep := step_of_unknown (s := reportUnknown 0x00 (s.pc + BitVec.ofNat 16 k) (s.fetched (k + 1)))
      hunknown (hmem _)
    rw [run_succ_next_iff, ← s.fetched_advance (k + 1) 1]
    exact ⟨_, ih, hstep⟩

/-- Settles O49: the state of `run_of_zero`, field by field. -/
theorem emptyMemoryRunsForever : Obligations.EmptyMemoryRunsForever :=
  fun k _ hunknown hmem => run_of_zero hunknown hmem k

end Sys2Proof.Machine
end

section
/-!
Memory and its users (spec/20_memory.md sections 1, 2 and 9): the canonical form is determined by the bytes, the
engine's access primitives, and host writes as the next fetch sees them.
-/

namespace Sys2Proof.Machine

/-! ## The canonical form -/

/-- The first cell is what is read at its address. -/
theorem Memory.byteAt_cons_self (a : Nat) (v : Byte) (m : Memory) : Memory.byteAt ((a, v) :: m) a = v := if_pos rfl

/-- In a canonical memory the cells after the first are what is read everywhere but at the first address. -/
theorem Memory.byteAt_tail {a : Nat} {v : Byte} {m : Memory} (hm : Memory.wfFrom (a + 1) m = true) (addr : Nat) :
    m.byteAt addr = if addr = a then unlistedByte else Memory.byteAt ((a, v) :: m) addr := by
  split_ifs with h
  · exact h ▸ Memory.byteAt_below hm (Nat.lt_succ_self _)
  · rw [Memory.byteAt, if_neg (Ne.symm h)]

/-- A memory whose first cell lies below every cell of a canonical memory does not read like that one. -/
theorem Memory.not_byteAt_eq_of_lt {a lo : Nat} {v : Byte} {m m' : Memory} (hv : v ≠ unlistedByte) (h : a < lo)
    (hm' : Memory.wfFrom lo m' = true) : Memory.byteAt ((a, v) :: m) a ≠ m'.byteAt a := by
  rwa [Memory.byteAt_cons_self, Memory.byteAt_below hm' h]

/-- Canonical memories that read alike are equal, from any address on. -/
theorem Memory.eq_of_byteAt_eq {lo : Nat} {m m' : Memory} (hm : Memory.wfFrom lo m = true)
    (hm' : Memory.wfFrom lo m' = true) (h : ∀ addr, m.byteAt addr = m'.byteAt addr) : m = m' := by
  induction m generalizing lo m' with
  | nil =>
    cases m' with
    | nil => rfl
    | cons c' m' =>
      obtain ⟨-, -, hv', -⟩ := (Memory.wfFrom_cons ..).1 hm'
      exact absurd (h c'.1).symm (Memory.not_byteAt_eq_of_lt hv' (Nat.lt_succ_self _) rfl)
  | cons c m ih =>
    obtain ⟨a, v⟩ := c
    obtain ⟨-, ha, hv, hrest⟩ := (Memory.wfFrom_cons ..).1 hm
    cases m' with
    | nil => exact absurd (h a) (Memory.not_byteAt_eq_of_lt hv (Nat.lt_succ_self _) rfl)
    | cons c' m' =>
      obtain ⟨a', v'⟩ := c'
      obtain ⟨-, ha', hv', hrest'⟩ := (Memory.wfFrom_cons ..).1 hm'
      obtain hlt | rfl | hgt := Nat.lt_trichotomy a a'
      · have hfrom' := (Memory.wfFrom_cons ..).2 ⟨Nat.le_refl a', ha', hv', hrest'⟩
        exact absurd (h a) (Memory.not_byteAt_eq_of_lt hv hlt hfrom')
      · have hvv : v = v' := by simpa only [Memory.byteAt_cons_self] using h a
        have htail : ∀ addr, Memory.byteAt m addr = Memory.byteAt m' addr := fun addr => by
          rw [Memory.byteAt_tail (v := v) hrest, Memory.byteAt_tail (v := v') hrest', h]
        rw [hvv, ih hrest hrest' htail]
      · have hfrom := (Memory.wfFrom_cons ..).2 ⟨Nat.le_refl a, ha, hv, hrest⟩
        exact absurd (h a').symm (Memory.not_byteAt_eq_of_lt hv' hgt hfrom)

/-- Settles O42, by induction over the cells: two canonical memories that read alike begin with the same cell. -/
theorem canonicalMemoryIsDeterminedByItsBytes : Obligations.CanonicalMemoryIsDeterminedByItsBytes :=
  fun _ _ => Memory.eq_of_byteAt_eq

/-! ## The access primitives -/

/-- Settles O40: each primitive by what it can do in range and out of range. -/
theorem engineAccessPrimitives : Obligations.EngineAccessPrimitives := by
  intro s
  refine ⟨rfl, ⟨?_, fetchWord_snd s⟩, fun _ => readByte_of_lt, fun _ => readByte_of_le, fun addr haddr => ?_,
    readWord_at_top rfl⟩
  · rw [fetchWord_fst, wordOf_toNat]
  · exact ⟨_, readWord_of_lt (Nat.succ_lt_succ haddr), wordOf_toNat ..⟩

/-! ## The host's writes -/

/-- Settles O41: the write replaces the memory alone, and its read-back law gives the byte at every offset from `PC`. -/
theorem nextFetchSeesTheHostWrite : Obligations.NextFetchSeesTheHostWrite := by
  intro s t addr v hs h k
  have hpc : t.pc = s.pc := by
    obtain ⟨-, rfl⟩ := memWrite_ok_iff.1 h
    rfl
  rw [streamByte, streamByte, hpc, memWrite_byteAt hs h]

theorem State.setFlag_mem (s : State) (f : FlagName) (v : Bool) : (s.setFlag f v).mem = s.mem := by cases f <;> rfl

/-- A completing command leaves memory canonical: reset empties it, a write stores into it, a step and the writes of
registers and flags leave it. -/
theorem hostDo_wf {s t : State} {c : HostCommand} (hs : s.mem.wf = true) (ht : hostDo s c = .next t) :
    t.mem.wf = true := by
  cases c with
  | reset => cases ht; exact resetCommand_wf s
  | executeOne => rwa [exec_mem ht]
  | write addr v =>
    rcases Nat.lt_or_ge addr memSize with h | h
    · rw [hostDo_write_of_lt h] at ht
      cases ht
      exact Memory.wf_store hs h
    · rw [hostDo_write_of_le h] at ht
      cases ht
  | setFlag f v => cases ht; rwa [State.setFlag_mem]
  | setPc v | setSp v | setA v | setX v | setY v | setAbr v | setCycleCount v => cases ht; exact hs

/-- Settles O46: every command keeps the parameters, completing or not, and leaves memory canonical. -/
theorem hostCommandsKeepMemoryCanonical : Obligations.HostCommandsKeepMemoryCanonical := by
  intro s t c hs ht
  have hcfg := hostDo_hasConfig s c
  rw [ht] at hcfg
  exact ⟨hostDo_wf hs ht, hcfg⟩

end Sys2Proof.Machine
end

section
/-!
The step at given bytes (spec/43_dispatch.md, spec/42_jump.md, spec/70_reset_and_hazards.md section 1): the decoded
instruction is what runs, after reset too, and the two jumps in full.
-/

namespace Sys2Proof.Machine

/-! ## The decoded instruction -/

/-- Settles O11: the decoder assembles the instruction that `instrAtPc` does from the same three bytes. -/
theorem stepRunsTheDecodedInstruction : Obligations.StepRunsTheDecodedInstruction := by
  intro s i rest h
  rw [decode_three, ← instrAtPc_eq] at h
  obtain ⟨rfl, -⟩ := Prod.mk.inj (Except.ok.inj h)
  rfl

/-- Three bytes stored in a row, with wrapping addresses, are read back. -/
theorem Memory.byteAt_storeBytes_three {m : Memory} (hm : m.wf = true) (a : Word) (b0 b1 b2 : Byte) :
    (m.storeBytes a [b0, b1, b2]).byteAt a.toNat = b0 ∧ (m.storeBytes a [b0, b1, b2]).byteAt (a + 1).toNat = b1 ∧
      (m.storeBytes a [b0, b1, b2]).byteAt (a + 2).toNat = b2 := by
  have h0 := Memory.wf_store (v := b0) hm a.isLt
  have h1 := Memory.wf_store (v := b1) h0 (a + 1).isLt
  have haddr : a + 1 + 1 = a + 2 := BitVec.add_assoc a 1 1
  have h01 : a.toNat ≠ (a + 1).toNat := by bv_omega
  have h02 : a.toNat ≠ (a + 2).toNat := by bv_omega
  have h12 : (a + 1).toNat ≠ (a + 2).toNat := by bv_omega
  simp only [Memory.storeBytes, haddr, Memory.byteAt_store h1, Memory.byteAt_store h0, Memory.byteAt_store hm,
    if_neg h01, if_neg h02, if_neg h12, if_true, and_self]

theorem decode_of_decodeTableWord {nbits w : Nat} {i : Instr} (h : decodeTableWord nbits w = some i) :
    ∃ rest, decode Config.default (tableBytes nbits w) = .ok (i, rest) := by
  rw [decodeTableWord] at h
  split at h
  · rename_i j rest hdecode
    exact ⟨rest, hdecode.trans (by rw [Option.some.inj h])⟩
  · cases h

/-- The instruction that `withFetchWord` places at `PC` is the one that the next step runs. -/
theorem step_withFetchWord {s : State} {nbits w : Nat} {i : Instr} (hs : s.mem.wf = true)
    (hcfg : s.cfg = Config.default) (h : decodeTableWord nbits w = some i) :
    step (s.withFetchWord nbits w) = exec i (s.withFetchWord nbits w) := by
  obtain ⟨rest, hdecode⟩ := decode_of_decodeTableWord h
  obtain ⟨h0, h1, h2⟩ := Memory.byteAt_storeBytes_three hs s.pc _ _ _
  refine stepRunsTheDecodedInstruction _ i rest (Eq.trans ?_ hdecode)
  rw [State.withFetchWord, State.setMem_cfg, State.setMem_mem, State.setMem_pc, hcfg, tableBytes, h0, h1, h2]

/-- Settles O10: after reset `PC` is 0xFFFC, and the step runs what the decoder reads there. -/
theorem firstStepRunsTheBytesAtTheResetVector : Obligations.FirstStepRunsTheBytesAtTheResetVector :=
  ⟨fun m i rest h => stepRunsTheDecodedInstruction (State.reset.setMem m) i rest h,
    fun _ _ _ h => step_withFetchWord reset_wf rfl h⟩

/-! ## The jumps -/

/-- Settles O19: three bytes are fetched, and `PC` is the operand word. -/
theorem jmpAbsoluteEffect : Obligations.JmpAbsoluteEffect := by
  intro s word
  refine ⟨rfl, fun hcfg hop hw => ?_⟩
  obtain ⟨-, -, -, -, -, hform, -⟩ := Config.form_of_wf hcfg
  exact step_of_operandWord hform (fun _ _ => rfl) hop hw

/-- Settles O20: the target is the word at the pointer, and the pointer 0xFFFF has no second byte in range. -/
theorem jmpIndirectEffect : Obligations.JmpIndirectEffect := by
  intro s word
  refine ⟨fun hw => ?_, fun hw => ?_, fun hcfg hop hword => ?_⟩
  · rw [← s.jumpTarget_toNat, BitVec.ofNat_toNat, BitVec.setWidth_eq]
    exact execJmpInd_next_iff.2 ⟨hw, rfl⟩
  · exact execJmpInd_faults_iff.2 ⟨hw, rfl⟩
  · obtain ⟨-, -, -, -, -, -, hform⟩ := Config.form_of_wf hcfg
    exact step_of_operandWord hform (fun _ _ => rfl) hop hword

end Sys2Proof.Machine
end
